-- ==== Sys2Proof/Word.lean ====
section
/-! DEFINITION. The word types of TE8 (00_scope.md R6, R7): bytes, 16-bit addresses and register
indices. There is no signed interpretation of any of them. -/

namespace Sys2Proof

/-- An 8-bit value: a register, a memory byte, an immediate or a port value. -/
abbrev Byte := BitVec 8

/-- A 16-bit value: `pc`, `sp` and every address of program or data memory. -/
abbrev Addr := BitVec 16

/-- A general register's index, 0 to 15, one nibble wide (10_state.md R23). -/
abbrev RegIdx := Fin 16

end Sys2Proof
end

