-- ==== Sys2Proof/Syntax.lean ====
section
/-! DEFINITION. The syntax of TE8: its 37 mnemonics, its eight operand-encoding classes and its
instructions, one constructor per row of the opcode table (30_encoding.md R82, R86, R92). Every
operand field has exactly the width the encoding gives it, so that every term names an instruction
(R83: no operand value is invalid). -/

namespace Sys2Proof

/-- The eight operand-encoding classes (30_encoding.md R82). -/
inductive OperandClass where
  | none | regPair | singleReg | regImm8 | addr16 | regAddr16 | regPtrPair | regPort8
  deriving DecidableEq, Repr

/-- The 37 mnemonics, in the order of the opcode map (30_encoding.md R86). `brk` is BREAK and `inp`
is IN, whose own names are words of Lean. -/
inductive Mnemonic where
  | nop | stop | sleep | brk | ei | di | add | addc | sub
  | subc | inc | dec | and | or | xor | cmp | cmpi | jmp
  | call | ret | reti | brc | brnc | brz | brnz | mov | ldi
  | ld | st | lpm | ldd | std | lpmd | push | pop | inp
  | out
  deriving DecidableEq, Repr

/-- Every mnemonic, in the order of the opcode map (30_encoding.md R86). -/
def Mnemonic.all : List Mnemonic :=
  [.nop, .stop, .sleep, .brk, .ei, .di, .add, .addc, .sub,
   .subc, .inc, .dec, .and, .or, .xor, .cmp, .cmpi, .jmp,
   .call, .ret, .reti, .brc, .brnc, .brz, .brnz, .mov, .ldi,
   .ld, .st, .lpm, .ldd, .std, .lpmd, .push, .pop, .inp,
   .out]

/-- An instruction with its operands (30_encoding.md R92): `d` and `src` are the registers of a
register-pair byte, `r` the register of a register-index byte, `ph` and `pl` the two registers of a
pointer pair. The ignored nibbles are no fields (R85). -/
inductive Instr where
  /-- NOP, R150. -/
  | nop
  /-- STOP, R151. -/
  | stop
  /-- SLEEP, R152. -/
  | sleep
  /-- BREAK, R153. -/
  | brk
  /-- EI, R154. -/
  | ei
  /-- DI, R155. -/
  | di
  /-- ADD, R160. -/
  | add (d src : RegIdx)
  /-- ADDC, R161. -/
  | addc (d src : RegIdx)
  /-- SUB, R162. -/
  | sub (d src : RegIdx)
  /-- SUBC, R163. -/
  | subc (d src : RegIdx)
  /-- INC, R164. -/
  | inc (r : RegIdx)
  /-- DEC, R165. -/
  | dec (r : RegIdx)
  /-- AND, R180. -/
  | and (d src : RegIdx)
  /-- OR, R181. -/
  | or (d src : RegIdx)
  /-- XOR, R182. -/
  | xor (d src : RegIdx)
  /-- CMP, R183. -/
  | cmp (d src : RegIdx)
  /-- CMPI, R184. -/
  | cmpi (r : RegIdx) (imm : Byte)
  /-- JMP, R190. -/
  | jmp (addr : Addr)
  /-- CALL, R191. -/
  | call (addr : Addr)
  /-- RET, R192. -/
  | ret
  /-- RETI, R193. -/
  | reti
  /-- BRC, R194. -/
  | brc (addr : Addr)
  /-- BRNC, R195. -/
  | brnc (addr : Addr)
  /-- BRZ, R196. -/
  | brz (addr : Addr)
  /-- BRNZ, R197. -/
  | brnz (addr : Addr)
  /-- MOV, R205. -/
  | mov (d src : RegIdx)
  /-- LDI, R206. -/
  | ldi (r : RegIdx) (imm : Byte)
  /-- LD, R207. -/
  | ld (r : RegIdx) (addr : Addr)
  /-- ST, R208. -/
  | st (r : RegIdx) (addr : Addr)
  /-- LPM, R209. -/
  | lpm (r : RegIdx) (addr : Addr)
  /-- LDD, R210. -/
  | ldd (r ph pl : RegIdx)
  /-- STD, R211. -/
  | std (r ph pl : RegIdx)
  /-- LPMD, R212. -/
  | lpmd (r ph pl : RegIdx)
  /-- PUSH, R220. -/
  | push (r : RegIdx)
  /-- POP, R221. -/
  | pop (r : RegIdx)
  /-- IN, R222. -/
  | inp (r : RegIdx) (port : Byte)
  /-- OUT, R223. -/
  | out (r : RegIdx) (port : Byte)
  deriving DecidableEq, Repr

end Sys2Proof
end

