-- ==== Sys2Proof/Config.lean ====
section
/-! DEFINITION. What is fixed for one machine (the parameters of 00_scope.md R6) and the values the
spec leaves free. The default values stand in Decode.lean (`OpcodeMap.standard`, `Config.standard`). -/

namespace Sys2Proof

/-- The parameter `PUSH16_ORDER`: which byte of a 16-bit push goes first (20_memory.md R60, D4). -/
inductive PushOrder where
  | highFirst | lowFirst
  deriving DecidableEq, Repr

/-- The parameter `DISASM_BOUND`: how far a disassembly walks (30_encoding.md R101, R105, D7). -/
inductive DisasmBound where
  | full | loadedLength
  deriving DecidableEq, Repr

/-- The parameter `OPCODE_MAP`: each mnemonic's opcode byte (30_encoding.md R88, D1), as plain data. -/
structure OpcodeMap where
  (nop stop sleep brk ei di add addc sub : Byte)
  (subc inc dec and or xor cmp cmpi jmp : Byte)
  (call ret reti brc brnc brz brnz mov ldi : Byte)
  (ld st lpm ldd std lpmd push pop inp : Byte)
  (out : Byte)
  deriving DecidableEq, Repr

/-- The opcode byte a map gives a mnemonic (30_encoding.md R88). -/
def OpcodeMap.byte (map : OpcodeMap) : Mnemonic → Byte
  | .nop => map.nop
  | .stop => map.stop
  | .sleep => map.sleep
  | .brk => map.brk
  | .ei => map.ei
  | .di => map.di
  | .add => map.add
  | .addc => map.addc
  | .sub => map.sub
  | .subc => map.subc
  | .inc => map.inc
  | .dec => map.dec
  | .and => map.and
  | .or => map.or
  | .xor => map.xor
  | .cmp => map.cmp
  | .cmpi => map.cmpi
  | .jmp => map.jmp
  | .call => map.call
  | .ret => map.ret
  | .reti => map.reti
  | .brc => map.brc
  | .brnc => map.brnc
  | .brz => map.brz
  | .brnz => map.brnz
  | .mov => map.mov
  | .ldi => map.ldi
  | .ld => map.ld
  | .st => map.st
  | .lpm => map.lpm
  | .ldd => map.ldd
  | .std => map.std
  | .lpmd => map.lpmd
  | .push => map.push
  | .pop => map.pop
  | .inp => map.inp
  | .out => map.out

/-- The parameters of one machine (00_scope.md R6). No step and no host request changes them. -/
structure Config where
  /-- `OPCODE_MAP` (30_encoding.md R88). -/
  opcodeMap : OpcodeMap
  /-- `VEC_SERIAL`, the serial line's vector (10_state.md R37, D3). -/
  vecSerial : Addr
  /-- `PUSH16_ORDER` (20_memory.md R60, D4). -/
  push16Order : PushOrder
  /-- `DISASM_BOUND` (30_encoding.md R105, D7). -/
  disasmBound : DisasmBound
  /-- `DISPATCH_THEN_FETCH` (40_execution_cycle.md R126, D12). -/
  dispatchThenFetch : Bool
  deriving DecidableEq, Repr

/-- FREE VALUE. The byte that the host's read callback answers at the `n`-th read of a bound port:
"a free input (a draw) of the step, with no law" (20_memory.md R66). It has no body, so nothing can
be proved about its values; the counter it is applied to is `State.draws` (assumption log 2). -/
opaque Config.portDraw : Nat → Byte

end Sys2Proof
end

