-- ==== Sys2Proof/WellFormed.lean ====
section
/-! DEFINITION. The well-formedness checks. Every operand field has its encoding's width by its type,
so every `Instr` term is well formed (30_encoding.md R83: "No operand value is invalid"). What can be
ill formed is an opcode map, on which 30_encoding.md R88 puts three constraints. -/

namespace Sys2Proof

/-- No two mnemonics share an opcode byte (30_encoding.md R88, first constraint). -/
def OpcodeMap.isInjective (map : OpcodeMap) : Bool :=
  decide (Mnemonic.all.map map.byte).Nodup

/-- NOP is 0x00 (30_encoding.md R88, second constraint; fixed by the source). -/
def OpcodeMap.fixesNop (map : OpcodeMap) : Bool := map.byte .nop == 0x00

/-- INC is 0x14 (30_encoding.md R88, second constraint; fixed by the source). -/
def OpcodeMap.fixesInc (map : OpcodeMap) : Bool := map.byte .inc == 0x14

/-- An admissible opcode map (30_encoding.md R88). The third constraint, that a mnemonic's class does
not depend on its byte, holds by the type of `Mnemonic.operandClass`. -/
def OpcodeMap.wf (map : OpcodeMap) : Bool :=
  map.isInjective && map.fixesNop && map.fixesInc

/-- Admissible parameters: every value of the other four is admissible (00_scope.md R6). -/
def Config.wf (config : Config) : Bool := config.opcodeMap.wf

end Sys2Proof
end

