-- ==== Sys2Proof/Decode.lean ====
section
/-! DEFINITION. Bit utilities, the default parameters, the decoder (total on any bytes, rejecting by
name) and, after it, the encoder (30_encoding.md R80 to R93). -/

namespace Sys2Proof

/-! ### Bit utilities (00_scope.md R8) -/

/-- The high nibble `b[7:4]`, as a register index. -/
def hi4 (b : Byte) : RegIdx := (b.extractLsb' 4 4).toFin

/-- The low nibble `b[3:0]`, as a register index. -/
def lo4 (b : Byte) : RegIdx := (b.extractLsb' 0 4).toFin

/-- The byte with high nibble `h` and low nibble `l`. -/
def nibbles (h l : RegIdx) : Byte := (BitVec.ofFin h : BitVec 4) ++ (BitVec.ofFin l : BitVec 4)

/-- The high byte `w[15:8]`. -/
def hi8 (w : Addr) : Byte := w.extractLsb' 8 8

/-- The low byte `w[7:0]`. -/
def lo8 (w : Addr) : Byte := w.extractLsb' 0 8

/-- `w16(h, l) = h * 256 + l`. -/
def w16 (h l : Byte) : Addr := h ++ l

/-! ### The default parameters (00_scope.md R6) -/

/-- The default `OPCODE_MAP` (30_encoding.md R86). Only NOP and INC are fixed by the source; the other
bytes are the spec's own assignment (D1; assumption log 1). -/
def OpcodeMap.standard : OpcodeMap where
  nop := 0x00
  stop := 0x01
  sleep := 0x02
  brk := 0x03
  ei := 0x04
  di := 0x05
  add := 0x10
  addc := 0x11
  sub := 0x12
  subc := 0x13
  inc := 0x14
  dec := 0x15
  and := 0x20
  or := 0x21
  xor := 0x22
  cmp := 0x23
  cmpi := 0x24
  jmp := 0x30
  call := 0x31
  ret := 0x32
  reti := 0x33
  brc := 0x34
  brnc := 0x35
  brz := 0x36
  brnz := 0x37
  mov := 0x40
  ldi := 0x41
  ld := 0x42
  st := 0x43
  lpm := 0x44
  ldd := 0x45
  std := 0x46
  lpmd := 0x47
  push := 0x50
  pop := 0x51
  inp := 0x52
  out := 0x53

/-- The default parameters (00_scope.md R6). -/
def Config.standard : Config where
  opcodeMap := OpcodeMap.standard
  vecSerial := 0x0040
  push16Order := .highFirst
  disasmBound := .full
  dispatchThenFetch := true

/-! ### Operand classes -/

/-- The operand-encoding class of each mnemonic (30_encoding.md R87). -/
def Mnemonic.operandClass : Mnemonic → OperandClass
  | .nop => .none
  | .stop => .none
  | .sleep => .none
  | .brk => .none
  | .ei => .none
  | .di => .none
  | .add => .regPair
  | .addc => .regPair
  | .sub => .regPair
  | .subc => .regPair
  | .inc => .singleReg
  | .dec => .singleReg
  | .and => .regPair
  | .or => .regPair
  | .xor => .regPair
  | .cmp => .regPair
  | .cmpi => .regImm8
  | .jmp => .addr16
  | .call => .addr16
  | .ret => .none
  | .reti => .none
  | .brc => .addr16
  | .brnc => .addr16
  | .brz => .addr16
  | .brnz => .addr16
  | .mov => .regPair
  | .ldi => .regImm8
  | .ld => .regAddr16
  | .st => .regAddr16
  | .lpm => .regAddr16
  | .ldd => .regPtrPair
  | .std => .regPtrPair
  | .lpmd => .regPtrPair
  | .push => .singleReg
  | .pop => .singleReg
  | .inp => .regPort8
  | .out => .regPort8

/-- How many bytes follow the opcode byte (30_encoding.md R82). -/
def OperandClass.operandBytes : OperandClass → Nat
  | .none => 0
  | .regPair | .singleReg => 1
  | .regImm8 | .addr16 | .regPtrPair | .regPort8 => 2
  | .regAddr16 => 3

/-- The length in bytes of a mnemonic's instructions (30_encoding.md R81, R82). -/
def Mnemonic.length (m : Mnemonic) : Nat := 1 + m.operandClass.operandBytes

/-- The mnemonic of an instruction. -/
def Instr.mnemonic : Instr → Mnemonic
  | .nop => .nop
  | .stop => .stop
  | .sleep => .sleep
  | .brk => .brk
  | .ei => .ei
  | .di => .di
  | .add _ _ => .add
  | .addc _ _ => .addc
  | .sub _ _ => .sub
  | .subc _ _ => .subc
  | .inc _ => .inc
  | .dec _ => .dec
  | .and _ _ => .and
  | .or _ _ => .or
  | .xor _ _ => .xor
  | .cmp _ _ => .cmp
  | .cmpi _ _ => .cmpi
  | .jmp _ => .jmp
  | .call _ => .call
  | .ret => .ret
  | .reti => .reti
  | .brc _ => .brc
  | .brnc _ => .brnc
  | .brz _ => .brz
  | .brnz _ => .brnz
  | .mov _ _ => .mov
  | .ldi _ _ => .ldi
  | .ld _ _ => .ld
  | .st _ _ => .st
  | .lpm _ _ => .lpm
  | .ldd _ _ _ => .ldd
  | .std _ _ _ => .std
  | .lpmd _ _ _ => .lpmd
  | .push _ => .push
  | .pop _ => .pop
  | .inp _ _ => .inp
  | .out _ _ => .out

/-! ### Decoding -/

/-- The mnemonic a map assigns to an opcode byte, if any (30_encoding.md R91). -/
def OpcodeMap.inverse (map : OpcodeMap) (op : Byte) : Option Mnemonic :=
  Mnemonic.all.find? fun m => map.byte m == op

/-- Operand assembly (30_encoding.md R83): the instruction of a mnemonic whose operand bytes are `b1`,
`b2`, `b3`; bytes its class does not have are not looked at. -/
def assemble (m : Mnemonic) (b1 b2 b3 : Byte) : Instr :=
  match m with
  | .nop => .nop
  | .stop => .stop
  | .sleep => .sleep
  | .brk => .brk
  | .ei => .ei
  | .di => .di
  | .add => .add (hi4 b1) (lo4 b1)
  | .addc => .addc (hi4 b1) (lo4 b1)
  | .sub => .sub (hi4 b1) (lo4 b1)
  | .subc => .subc (hi4 b1) (lo4 b1)
  | .inc => .inc (lo4 b1)
  | .dec => .dec (lo4 b1)
  | .and => .and (hi4 b1) (lo4 b1)
  | .or => .or (hi4 b1) (lo4 b1)
  | .xor => .xor (hi4 b1) (lo4 b1)
  | .cmp => .cmp (hi4 b1) (lo4 b1)
  | .cmpi => .cmpi (lo4 b1) b2
  | .jmp => .jmp (w16 b1 b2)
  | .call => .call (w16 b1 b2)
  | .ret => .ret
  | .reti => .reti
  | .brc => .brc (w16 b1 b2)
  | .brnc => .brnc (w16 b1 b2)
  | .brz => .brz (w16 b1 b2)
  | .brnz => .brnz (w16 b1 b2)
  | .mov => .mov (hi4 b1) (lo4 b1)
  | .ldi => .ldi (lo4 b1) b2
  | .ld => .ld (lo4 b1) (w16 b2 b3)
  | .st => .st (lo4 b1) (w16 b2 b3)
  | .lpm => .lpm (lo4 b1) (w16 b2 b3)
  | .ldd => .ldd (lo4 b1) (hi4 b2) (lo4 b2)
  | .std => .std (lo4 b1) (hi4 b2) (lo4 b2)
  | .lpmd => .lpmd (lo4 b1) (hi4 b2) (lo4 b2)
  | .push => .push (lo4 b1)
  | .pop => .pop (lo4 b1)
  | .inp => .inp (lo4 b1) b2
  | .out => .out (lo4 b1) b2

/-- What decoding answers (30_encoding.md R91). -/
inductive Decoded where
  /-- The opcode byte `v` is assigned to no mnemonic (R89). -/
  | illegal (v : Byte)
  /-- The bytes given end before the instruction does; decoding from memory never answers it. -/
  | truncated
  /-- The instruction and its length in bytes. -/
  | ok (i : Instr) (len : Nat)
  deriving DecidableEq, Repr

/-- Decode the instruction at the head of a list of bytes (30_encoding.md R91, R83, R89). -/
def decodeBytes (map : OpcodeMap) : List Byte → Decoded
  | [] => .truncated
  | op :: rest =>
    match map.inverse op with
    | none => .illegal op
    | some m =>
      if rest.length < m.operandClass.operandBytes then .truncated
      else .ok (assemble m (rest.getD 0 0) (rest.getD 1 0) (rest.getD 2 0)) m.length

/-- The bytes of a table word, as the hardware stores them: spec/opcode_table.json numbers a row's
bits over the whole instruction "read as a big-endian unsigned integer", the opcode byte most
significant (assumption log 5). Zeros follow up to the longest instruction, 4 bytes. -/
def tableBytes (nbits w : Nat) : List Byte :=
  (List.range (nbits / 8)).map (fun k => BitVec.ofNat 8 (w / 256 ^ (nbits / 8 - 1 - k)))
    ++ List.replicate (4 - nbits / 8) 0

/-- The instruction the decoder reads from a word of spec/opcode_table.json, under the default map. -/
def decodeTableWord (nbits w : Nat) : Option Instr :=
  match decodeBytes OpcodeMap.standard (tableBytes nbits w) with
  | .ok i _ => some i
  | .illegal _ => none
  | .truncated => none

/-! ### Encoding -/

/-- The operand bytes of an instruction, every ignored nibble written as 0 (30_encoding.md R82, R93). -/
def Instr.operandBytes : Instr → List Byte
  | .nop => []
  | .stop => []
  | .sleep => []
  | .brk => []
  | .ei => []
  | .di => []
  | .add d src => [nibbles d src]
  | .addc d src => [nibbles d src]
  | .sub d src => [nibbles d src]
  | .subc d src => [nibbles d src]
  | .inc r => [nibbles 0 r]
  | .dec r => [nibbles 0 r]
  | .and d src => [nibbles d src]
  | .or d src => [nibbles d src]
  | .xor d src => [nibbles d src]
  | .cmp d src => [nibbles d src]
  | .cmpi r imm => [nibbles 0 r, imm]
  | .jmp addr => [hi8 addr, lo8 addr]
  | .call addr => [hi8 addr, lo8 addr]
  | .ret => []
  | .reti => []
  | .brc addr => [hi8 addr, lo8 addr]
  | .brnc addr => [hi8 addr, lo8 addr]
  | .brz addr => [hi8 addr, lo8 addr]
  | .brnz addr => [hi8 addr, lo8 addr]
  | .mov d src => [nibbles d src]
  | .ldi r imm => [nibbles 0 r, imm]
  | .ld r addr => [nibbles 0 r, hi8 addr, lo8 addr]
  | .st r addr => [nibbles 0 r, hi8 addr, lo8 addr]
  | .lpm r addr => [nibbles 0 r, hi8 addr, lo8 addr]
  | .ldd r ph pl => [nibbles 0 r, nibbles ph pl]
  | .std r ph pl => [nibbles 0 r, nibbles ph pl]
  | .lpmd r ph pl => [nibbles 0 r, nibbles ph pl]
  | .push r => [nibbles 0 r]
  | .pop r => [nibbles 0 r]
  | .inp r port => [nibbles 0 r, port]
  | .out r port => [nibbles 0 r, port]

/-- The bytes of an instruction (30_encoding.md R93). -/
def encode (map : OpcodeMap) (i : Instr) : List Byte :=
  map.byte i.mnemonic :: i.operandBytes

/-- A class's operand bytes with the ignored high nibble of the register-index byte written as 0
(30_encoding.md R82, R93): what two encodings of one instruction agree on. -/
def clearIgnored (c : OperandClass) (bytes : List Byte) : List Byte :=
  match c, bytes with
  | .singleReg, b :: rest => nibbles 0 (lo4 b) :: rest
  | .regImm8, b :: rest => nibbles 0 (lo4 b) :: rest
  | .regAddr16, b :: rest => nibbles 0 (lo4 b) :: rest
  | .regPtrPair, b :: rest => nibbles 0 (lo4 b) :: rest
  | .regPort8, b :: rest => nibbles 0 (lo4 b) :: rest
  | .none, bytes => bytes
  | .regPair, bytes => bytes
  | .addr16, bytes => bytes
  | .singleReg, [] => []
  | .regImm8, [] => []
  | .regAddr16, [] => []
  | .regPtrPair, [] => []
  | .regPort8, [] => []

end Sys2Proof
end

