-- ==== Sys2Proof/Machine/State.lean ====
section
/-! DEFINITION. The state of TE8 CORE, all of it, as plain data (10_state.md R20 to R49), the reasons a
step can stop, and the state right after reset. -/

namespace Sys2Proof.Machine

/-- The execution status (10_state.md R38). -/
inductive Status where
  | running | sleeping | stopped
  deriving DecidableEq, Repr

/-- The four interrupt lines, highest priority first (10_state.md R35, R37). -/
inductive Line where
  | vblank | button | keyboard | serial
  deriving DecidableEq, Repr

/-- The pending booleans of the four lines (10_state.md R35). -/
structure Pending where
  vblank : Bool
  button : Bool
  keyboard : Bool
  serial : Bool
  deriving DecidableEq, Repr

/-- What a step reports to the host besides its new state (40_execution_cycle.md R127). -/
inductive Event where
  /-- A port read and the byte it returned (46_stack_io.md R222). -/
  | portRd (port value : Byte)
  /-- A port write (46_stack_io.md R223). -/
  | portWr (port value : Byte)
  /-- A BREAK and the address of its byte (41_system.md R153). -/
  | brk (address : Addr)
  deriving DecidableEq, Repr

/-- A 65536-byte memory: the bytes that differ from 0x00, by strictly rising address. An address that
is not listed reads as 0x00 (10_state.md R41, R42). -/
abbrev Memory := List Host.Cell

/-- The port table (10_state.md R43): the ports with a read callback and the ports with a write
callback, each list strictly rising. What a callback does is the host's (20_memory.md R66, R68). -/
structure PortTable where
  readBound : List Byte
  writeBound : List Byte
  deriving DecidableEq, Repr

/-- The state of one core. The first group is the architectural state of 10_state.md R49; the second
is what the spec gives the host or the model; the third is the model's own (assumption logs 1, 2, 3). -/
structure State where
  /-- The general registers R0 to R15 (10_state.md R20). -/
  regs : Vector Byte 16
  /-- The program counter (10_state.md R25). -/
  pc : Addr
  /-- The stack pointer (10_state.md R33). -/
  sp : Addr
  /-- The flag `C` (10_state.md R29). -/
  carry : Bool
  /-- The flag `Z` (10_state.md R30). -/
  zero : Bool
  /-- The flag `IE` (10_state.md R31). -/
  ie : Bool
  /-- The pending interrupt lines (10_state.md R35). -/
  pend : Pending
  /-- The execution status (10_state.md R38). -/
  status : Status
  /-- Program memory (10_state.md R40). -/
  pmem : Memory
  /-- Data memory (10_state.md R41). -/
  dmem : Memory
  /-- The port table (10_state.md R43). -/
  ports : PortTable
  /-- `L`, the length of the last successful load (40_execution_cycle.md R139). -/
  loadedLen : Nat
  /-- The parameters of this machine (00_scope.md R6); nothing changes them. -/
  config : Config
  /-- How many reads of bound ports have been answered: numbers the free values of 20_memory.md R66. -/
  draws : Nat
  /-- The events of the last step, in order (40_execution_cycle.md R127). -/
  events : List Event
  /-- The port events of the last step that invoked a callback, in order: those whose port was bound when
  the access was made (20_memory.md R66 to R68, R72; 40_execution_cycle.md R142, R143). -/
  portCalls : List Event
  deriving DecidableEq, Repr

/-- The two error conditions of the core (60_exceptions.md R230, R232). -/
inductive Fault where
  /-- `IllegalOpcode(v)`: raised by a step that fetched an opcode byte `v` assigned to no mnemonic
  (60_exceptions.md R230), with the state the step leaves (40_execution_cycle.md R125). Safe: the run
  does not go on by itself; the host may step on from `left`. -/
  | illegalOpcode (v : Byte) (left : State)
  /-- `ProgramTooLarge`: raised by a program load of more than 65536 bytes (60_exceptions.md R232).
  Safe: nothing changes. No step raises it. -/
  | programTooLarge
  deriving DecidableEq, Repr

/-- Why the model would give an instruction no meaning. -/
inductive Refusal where
  /-- The instruction has no meaning in this model yet; raised by an arm of `exec`. Safe. No arm of
  this model raises it: all 37 instructions have their meaning (60_exceptions.md R234). -/
  | notModelled (mnemonic : String)
  deriving DecidableEq, Repr

/-- What running an instruction or a step answers. -/
abbrev Result := Host.Outcome State Fault Refusal

/-- The machine right after reset, with no program loaded and no port bound (70_reset_and_hazards.md
R260, R263; 10_state.md R49): program memory reads 0x00 everywhere before any load (10_state.md R42).
The parameters are the defaults (00_scope.md R6). `draws`, `events` and `portCalls` are the model's own. -/
def State.reset : State where
  regs := Vector.replicate 16 0x00
  pc := 0x0000
  sp := 0xFFFF
  carry := false
  zero := false
  ie := false
  pend := ⟨false, false, false, false⟩
  status := .running
  pmem := []
  dmem := []
  ports := ⟨[], []⟩
  loadedLen := 0
  config := Config.standard
  draws := 0
  events := []
  portCalls := []

end Sys2Proof.Machine
end

