-- ==== Sys2Proof/Machine/Ops.lean ====
section
/-! DEFINITION. The named operations over the state: memories, registers, the stack, the ports, the
fetch of a byte, interrupt dispatch and the return from it, and reset. -/

namespace Sys2Proof.Machine

/-! ### Memories -/

/-- The byte at an address; an address that is not listed reads 0x00 (10_state.md R41, R42). -/
def Memory.read : Memory → Nat → Byte
  | [], _ => 0x00
  | (key, value) :: rest, a => if key = a then value else Memory.read rest a

/-- Lists `value` at address `a`, in place of what was listed there. -/
def Memory.insert : Memory → Nat → Byte → Memory
  | [], a, value => [(a, value)]
  | (key, old) :: rest, a, value =>
    if a < key then (a, value) :: (key, old) :: rest
    else if key = a then (a, value) :: rest
    else (key, old) :: Memory.insert rest a value

/-- Unlists address `a`. -/
def Memory.erase (m : Memory) (a : Nat) : Memory := m.filter fun cell => cell.1 != a

/-- Set the byte at an address (20_memory.md R53), keeping the canonical form: 0x00 is not listed. -/
def Memory.write (m : Memory) (a : Nat) (value : Byte) : Memory :=
  if value = 0x00 then m.erase a else m.insert a value

/-- Set consecutive bytes from address `a` on, wrapping mod 65536. -/
def Memory.writeBytes : Memory → Addr → List Byte → Memory
  | m, _, [] => m
  | m, a, b :: rest => Memory.writeBytes (m.write a.toNat b) (a + 1) rest

/-- The addresses rise strictly from `low` on, stay below 65536, and no listed byte is 0x00. -/
def Memory.wfFrom : Nat → Memory → Bool
  | _, [] => true
  | low, (key, value) :: rest =>
    decide (low ≤ key) && decide (key < 65536) && value != 0x00 && Memory.wfFrom (key + 1) rest

/-- The canonical form of a memory: equal memories are equal lists. -/
def Memory.wf (m : Memory) : Bool := Memory.wfFrom 0 m

/-- `MemRead(P, a, 1)` (20_memory.md R53). -/
def State.readProgram (s : State) (a : Addr) : Byte := s.pmem.read a.toNat

/-- `MemRead(D, a, 1)` (20_memory.md R53). -/
def State.readData (s : State) (a : Addr) : Byte := s.dmem.read a.toNat

/-- `MemWrite(D, a, 1, v)` (20_memory.md R53). -/
def State.writeData (s : State) (a : Addr) (v : Byte) : State :=
  { s with dmem := s.dmem.write a.toNat v }

/-- The four program bytes at an address, the most an instruction has (30_encoding.md R81), wrapping
mod 65536. -/
def Memory.window (m : Memory) (a : Addr) : List Byte :=
  [m.read a.toNat, m.read (a + 1).toNat, m.read (a + 2).toNat, m.read (a + 3).toNat]

/-- `decode(mem, a)` (30_encoding.md R91). -/
def decodeAt (map : OpcodeMap) (m : Memory) (a : Addr) : Decoded := decodeBytes map (m.window a)

/-! ### Registers, flags and the other fields -/

/-- `x[i]` (00_scope.md R9). -/
def State.reg (s : State) (i : RegIdx) : Byte := s.regs[i]

/-- `x[i] <- v` (00_scope.md R9); no register is hardwired (10_state.md R21). -/
def State.setReg (s : State) (i : RegIdx) (v : Byte) : State := { s with regs := s.regs.set i v }

/-- `C <- c`, `Z <- z`. -/
def State.setCarryZero (s : State) (c z : Bool) : State := { s with carry := c, zero := z }

/-- `IE <- b`. -/
def State.setIe (s : State) (b : Bool) : State := { s with ie := b }

/-- `pc <- a` (10_state.md R27). -/
def State.setPc (s : State) (a : Addr) : State := { s with pc := a }

/-- `sp <- a`. -/
def State.setSp (s : State) (a : Addr) : State := { s with sp := a }

/-- `status <- x`. -/
def State.setStatus (s : State) (x : Status) : State := { s with status := x }

/-- Replace the pending lines. -/
def State.setPend (s : State) (p : Pending) : State := { s with pend := p }

/-- `events <- events ++ [e]`. -/
def State.emit (s : State) (e : Event) : State := { s with events := s.events ++ [e] }

/-- A port event invokes the host's callback (20_memory.md R66, R68). -/
def State.callPort (s : State) (e : Event) : State := { s with portCalls := s.portCalls ++ [e] }

/-- `events <- []`, at the start of a step (40_execution_cycle.md R120); the step has called no port yet. -/
def State.clearEvents (s : State) : State := { s with events := [], portCalls := [] }

/-! ### The stack -/

/-- `push8(v)`: write at `sp`, then decrement it (20_memory.md R58). -/
def push8 (v : Byte) (s : State) : State := (s.writeData s.sp v).setSp (s.sp - 1)

/-- `pop8()`: increment `sp`, then read there (20_memory.md R59). -/
def pop8 (s : State) : Byte × State :=
  let t := s.setSp (s.sp + 1)
  (t.readData t.sp, t)

/-- `push16(v)`, in the order of the parameter `PUSH16_ORDER` (20_memory.md R60). -/
def push16 (v : Addr) (s : State) : State :=
  match s.config.push16Order with
  | .highFirst => push8 (lo8 v) (push8 (hi8 v) s)
  | .lowFirst => push8 (hi8 v) (push8 (lo8 v) s)

/-- `pop16()`, the inverse of `push16` (20_memory.md R61). -/
def pop16 (s : State) : Addr × State :=
  let first := pop8 s
  let second := pop8 first.2
  match s.config.push16Order with
  | .highFirst => (w16 second.1 first.1, second.2)
  | .lowFirst => (w16 first.1 second.1, second.2)

/-- `pc <- pop16()` (44_control.md R192). -/
def returnFromStack (s : State) : State :=
  let popped := pop16 s
  popped.2.setPc popped.1

/-! ### The ports -/

/-- `PortRead(p)`: a bound port invokes its callback, which answers a free byte (20_memory.md R66), an
unbound one answers 0x00 and has no side effect (R67). -/
def portRead (p : Byte) (s : State) : Byte × State :=
  if p ∈ s.ports.readBound then
    (Config.portDraw s.draws,
      { s with draws := s.draws + 1 }.callPort (.portRd p (Config.portDraw s.draws)))
  else (0x00, s)

/-- `PortWrite(p, v)`: a bound port invokes its callback (20_memory.md R68), an unbound one discards `v`
(R67); either way the write is an event (46_stack_io.md R223). -/
def portWrite (p v : Byte) (s : State) : State :=
  (if p ∈ s.ports.writeBound then s.callPort (.portWr p v) else s).emit (.portWr p v)

/-- Put `p` into a strictly rising list of ports. -/
def insertPort (p : Byte) : List Byte → List Byte
  | [] => [p]
  | q :: rest =>
    if p < q then p :: q :: rest else if p = q then q :: rest else q :: insertPort p rest

/-- Both lists of the port table rise strictly. -/
def PortTable.wf (t : PortTable) : Bool :=
  decide (t.readBound.Pairwise (· < ·)) && decide (t.writeBound.Pairwise (· < ·))

/-! ### Fetching -/

/-- `fetch8()` (30_encoding.md R80). -/
def fetch8 (s : State) : Byte × State := (s.readProgram s.pc, s.setPc (s.pc + 1))

/-- Fetch `n` bytes in increasing address order (30_encoding.md R80). -/
def fetchBytes : Nat → State → List Byte × State
  | 0, s => ([], s)
  | n + 1, s =>
    let first := fetch8 s
    let others := fetchBytes n first.2
    (first.1 :: others.1, others.2)

/-! ### Interrupts -/

/-- Whether a line is pending. -/
def Pending.get (p : Pending) : Line → Bool
  | .vblank => p.vblank
  | .button => p.button
  | .keyboard => p.keyboard
  | .serial => p.serial

/-- `pend[l] <- b`. -/
def Pending.set (p : Pending) (l : Line) (b : Bool) : Pending :=
  match l with
  | .vblank => { p with vblank := b }
  | .button => { p with button := b }
  | .keyboard => { p with keyboard := b }
  | .serial => { p with serial := b }

/-- The highest-priority pending line: vblank > button > keyboard > serial (60_exceptions.md R237). -/
def Pending.highest (p : Pending) : Option Line :=
  [Line.vblank, .button, .keyboard, .serial].find? p.get

/-- The vector of a line (60_exceptions.md R237); the serial one is the parameter `VEC_SERIAL`. -/
def vector (config : Config) : Line → Addr
  | .vblank => 0x0010
  | .button => 0x0020
  | .keyboard => 0x0030
  | .serial => config.vecSerial

/-- The line that step part 2 dispatches, if any (40_execution_cycle.md R122): `IE` gates all lines
together (60_exceptions.md R236). -/
def State.dueLine (s : State) : Option Line := if s.ie then s.pend.highest else none

/-- Taking an interrupt (60_exceptions.md R238), for the line `l` to be serviced. -/
def dispatch (l : Line) (s : State) : State :=
  let awake := (s.setStatus .running).setIe false
  let pushed := push16 awake.pc awake
  (pushed.setPc (vector pushed.config l)).setPend (pushed.pend.set l false)

/-- Returning from an interrupt: `IE <- true`, `pc <- pop16()` (44_control.md R193). -/
def returnFromInterrupt (s : State) : State := returnFromStack (s.setIe true)

/-! ### Reset -/

/-- `reset()` (70_reset_and_hazards.md R260, R261): program memory, the port table and `L` stay. The
parameters stay; `draws` stays, so that later reads are fresh; the events and callbacks of the last
step are dropped (assumption logs 2, 3). -/
def resetCore (s : State) : State :=
  { s with
    pc := 0x0000
    sp := 0xFFFF
    regs := Vector.replicate 16 0x00
    dmem := []
    carry := false
    zero := false
    ie := false
    pend := ⟨false, false, false, false⟩
    status := .running
    events := []
    portCalls := [] }

end Sys2Proof.Machine
end

