-- ==== Sys2Proof/Machine/Flags.lean ====
section
/-! DEFINITION. The arithmetic and logic unit: each operation's 8-bit result with its carry and zero,
computed over unbounded integers and narrowed at the end (00_scope.md R7, 42_arithmetic.md R170). -/

namespace Sys2Proof.Machine

/-- A result byte and the two flags that go with it. -/
structure Alu where
  result : Byte
  carry : Bool
  zero : Bool
  deriving DecidableEq, Repr

/-- ADD: carry when the sum is at least 256 (42_arithmetic.md R160). -/
def add8 (a b : Byte) : Alu :=
  let sum := a.toNat + b.toNat
  { result := BitVec.ofNat 8 sum, carry := decide (256 ≤ sum), zero := decide (sum % 256 = 0) }

/-- SUB: carry is the unsigned borrow (42_arithmetic.md R162). -/
def sub8 (a b : Byte) : Alu :=
  let difference : Int := (a.toNat : Int) - b.toNat
  { result := BitVec.ofInt 8 difference
    carry := decide (a.toNat < b.toNat)
    zero := decide (difference % 256 = 0) }

/-- ADDC, in the source's two steps: as ADD, then plus 1 if `C` came in, carry the OR of both
overflows, zero from the final byte (42_arithmetic.md R161). -/
def addc8 (cin : Bool) (a b : Byte) : Alu :=
  let first := add8 a b
  if cin then
    let second := add8 first.result 1
    { second with carry := first.carry || second.carry }
  else first

/-- SUBC, in the source's two steps: as SUB, then minus 1 if `C` came in, with the borrow of each step
(42_arithmetic.md R163). -/
def subc8 (cin : Bool) (a b : Byte) : Alu :=
  let first := sub8 a b
  if cin then
    let second := sub8 first.result 1
    { second with carry := first.carry || second.carry }
  else first

/-- A logic result: carry cleared, zero from the byte (43_logic_compare.md R180 to R182, R185). -/
def logic8 (r : Byte) : Alu := { result := r, carry := false, zero := decide (r = 0) }

/-- `x[d] <- result`, `C <- carry`, `Z <- zero`. -/
def writeAlu (d : RegIdx) (out : Alu) (s : State) : State :=
  (s.setReg d out.result).setCarryZero out.carry out.zero

/-- Flags only: no register is written (43_logic_compare.md R183). -/
def writeAluFlags (out : Alu) (s : State) : State := s.setCarryZero out.carry out.zero

end Sys2Proof.Machine
end

