-- ==== Sys2Proof/Machine/Arithmetic.lean ====
section
/-! DEFINITION. The arithmetic instructions (42_arithmetic.md). -/

namespace Sys2Proof.Machine

/-- ADD (R160). -/
def execAdd (d src : RegIdx) (s : State) : Result := .next (writeAlu d (add8 (s.reg d) (s.reg src)) s)

/-- ADDC (R161). -/
def execAddc (d src : RegIdx) (s : State) : Result := .next (writeAlu d (addc8 s.carry (s.reg d) (s.reg src)) s)

/-- SUB (R162). -/
def execSub (d src : RegIdx) (s : State) : Result := .next (writeAlu d (sub8 (s.reg d) (s.reg src)) s)

/-- SUBC (R163). -/
def execSubc (d src : RegIdx) (s : State) : Result := .next (writeAlu d (subc8 s.carry (s.reg d) (s.reg src)) s)

/-- INC (R164). -/
def execInc (r : RegIdx) (s : State) : Result := .next (writeAlu r (add8 (s.reg r) 1) s)

/-- DEC (R165). -/
def execDec (r : RegIdx) (s : State) : Result := .next (writeAlu r (sub8 (s.reg r) 1) s)

end Sys2Proof.Machine
end

