-- ==== Sys2Proof/Machine/Control.lean ====
section
/-! DEFINITION. The control-transfer instructions (44_control.md). `pc` is already past the instruction, at `next`;
every target is absolute and none is checked (R198). -/

namespace Sys2Proof.Machine

/-- JMP (R190). -/
def execJmp (addr : Addr) (s : State) : Result := .next (s.setPc addr)

/-- CALL: `push16(pc)`, then `pc <- addr` (R191). -/
def execCall (addr : Addr) (s : State) : Result := .next ((push16 s.pc s).setPc addr)

/-- RET: `pc <- pop16()` (R192). -/
def execRet (s : State) : Result := .next (returnFromStack s)

/-- RETI (R193). -/
def execReti (s : State) : Result := .next (returnFromInterrupt s)

/-- BRC: taken if `C` (R194). -/
def execBrc (addr : Addr) (s : State) : Result := .next (if s.carry then s.setPc addr else s)

/-- BRNC: taken if not `C` (R195). -/
def execBrnc (addr : Addr) (s : State) : Result := .next (if s.carry then s else s.setPc addr)

/-- BRZ: taken if `Z` (R196). -/
def execBrz (addr : Addr) (s : State) : Result := .next (if s.zero then s.setPc addr else s)

/-- BRNZ: taken if not `Z` (R197). -/
def execBrnz (addr : Addr) (s : State) : Result := .next (if s.zero then s else s.setPc addr)

end Sys2Proof.Machine
end

