-- ==== Sys2Proof/Machine/Logic.lean ====
section
/-! DEFINITION. The logic and compare instructions (43_logic_compare.md). -/

namespace Sys2Proof.Machine

/-- AND (R180). -/
def execAnd (d src : RegIdx) (s : State) : Result := .next (writeAlu d (logic8 (s.reg d &&& s.reg src)) s)

/-- OR (R181). -/
def execOr (d src : RegIdx) (s : State) : Result := .next (writeAlu d (logic8 (s.reg d ||| s.reg src)) s)

/-- XOR (R182). -/
def execXor (d src : RegIdx) (s : State) : Result := .next (writeAlu d (logic8 (s.reg d ^^^ s.reg src)) s)

/-- CMP: the flags of the difference, no register written (R183). -/
def execCmp (d src : RegIdx) (s : State) : Result := .next (writeAluFlags (sub8 (s.reg d) (s.reg src)) s)

/-- CMPI: the same against a literal (R184). -/
def execCmpi (r : RegIdx) (imm : Byte) (s : State) : Result := .next (writeAluFlags (sub8 (s.reg r) imm) s)

end Sys2Proof.Machine
end

