-- ==== Sys2Proof/Machine/StackIo.lean ====
section
/-! DEFINITION. The stack and port instructions (46_stack_io.md). None writes a flag. -/

namespace Sys2Proof.Machine

/-- `x[r] <- pop8()`: `sp` moves first, then the register is written. -/
def popInto (r : RegIdx) (s : State) : State :=
  let popped := pop8 s
  popped.2.setReg r popped.1

/-- `v <- PortRead(port)`, `x[r] <- v`, `events <- events ++ [PortRd(port, v)]`. -/
def readPortInto (r : RegIdx) (port : Byte) (s : State) : State :=
  let answered := portRead port s
  (answered.2.setReg r answered.1).emit (.portRd port answered.1)

/-- PUSH: `push8(x[r])` (R220). -/
def execPush (r : RegIdx) (s : State) : Result := .next (push8 (s.reg r) s)

/-- POP: `x[r] <- pop8()` (R221). -/
def execPop (r : RegIdx) (s : State) : Result := .next (popInto r s)

/-- IN: `x[r] <- PortRead(port)` and the event (R222). -/
def execIn (r : RegIdx) (port : Byte) (s : State) : Result := .next (readPortInto r port s)

/-- OUT: `PortWrite(port, x[r])` and the event (R223). -/
def execOut (r : RegIdx) (port : Byte) (s : State) : Result := .next (portWrite port (s.reg r) s)

end Sys2Proof.Machine
end

