-- ==== Sys2Proof/Machine/System.lean ====
section
/-! DEFINITION. The system instructions (41_system.md). `pc` is already past the instruction. -/

namespace Sys2Proof.Machine

/-- NOP: nothing (R150). -/
def execNop (s : State) : Result := .next s

/-- STOP: `status <- Stopped` (R151). -/
def execStop (s : State) : Result := .next (s.setStatus .stopped)

/-- SLEEP: `status <- Sleeping` (R152). -/
def execSleep (s : State) : Result := .next (s.setStatus .sleeping)

/-- BREAK: no effect but the event, which names the address of the BREAK byte (R153). -/
def execBreak (s : State) : Result := .next (s.emit (.brk (s.pc - 1)))

/-- EI: `IE <- true` (R154). -/
def execEi (s : State) : Result := .next (s.setIe true)

/-- DI: `IE <- false` (R155). -/
def execDi (s : State) : Result := .next (s.setIe false)

end Sys2Proof.Machine
end

