-- ==== Sys2Proof/Machine/Operands.lean ====
section
/-! DEFINITION. The addressing modes (45_data_transfer.md R213): register and immediate operands are the
accessors of Ops.lean and the instruction's own fields; here stand the memory operands, absolute and
through a register pair. The stack and port forms are operations of Ops.lean. -/

namespace Sys2Proof.Machine

/-- The pointer-pair effective address `w16(x[ph], x[pl])` (30_encoding.md R84). -/
def ptrAddr (ph pl : RegIdx) (s : State) : Addr := w16 (s.reg ph) (s.reg pl)

/-- `x[r] <- MemRead(D, a, 1)`. -/
def loadData (r : RegIdx) (a : Addr) (s : State) : State := s.setReg r (s.readData a)

/-- `MemWrite(D, a, 1, x[r])`. -/
def storeData (r : RegIdx) (a : Addr) (s : State) : State := s.writeData a (s.reg r)

/-- `x[r] <- MemRead(P, a, 1)`. -/
def loadProgram8 (r : RegIdx) (a : Addr) (s : State) : State := s.setReg r (s.readProgram a)

end Sys2Proof.Machine
end

