-- ==== Sys2Proof/Machine/Transfer.lean ====
section
/-! DEFINITION. The data-transfer instructions (45_data_transfer.md). None writes a flag. -/

namespace Sys2Proof.Machine

/-- MOV (R205). -/
def execMov (d src : RegIdx) (s : State) : Result := .next (s.setReg d (s.reg src))

/-- LDI (R206). -/
def execLdi (r : RegIdx) (imm : Byte) (s : State) : Result := .next (s.setReg r imm)

/-- LD (R207). -/
def execLd (r : RegIdx) (addr : Addr) (s : State) : Result := .next (loadData r addr s)

/-- ST (R208). -/
def execSt (r : RegIdx) (addr : Addr) (s : State) : Result := .next (storeData r addr s)

/-- LPM (R209). -/
def execLpm (r : RegIdx) (addr : Addr) (s : State) : Result := .next (loadProgram8 r addr s)

/-- LDD: the address is taken before the register is written (R210). -/
def execLdd (r ph pl : RegIdx) (s : State) : Result := .next (loadData r (ptrAddr ph pl s) s)

/-- STD (R211). -/
def execStd (r ph pl : RegIdx) (s : State) : Result := .next (storeData r (ptrAddr ph pl s) s)

/-- LPMD (R212). -/
def execLpmd (r ph pl : RegIdx) (s : State) : Result := .next (loadProgram8 r (ptrAddr ph pl s) s)

end Sys2Proof.Machine
end

