-- ==== Sys2Proof/Machine/Dispatch.lean ====
section
/-! DEFINITION. The one dispatch from an instruction to its meaning, an arm per constructor. -/

namespace Sys2Proof.Machine

def exec (i : Instr) (s : State) : Host.Outcome State Fault Refusal :=
  match i with
  | .nop => Sys2Proof.Machine.execNop s
  | .stop => Sys2Proof.Machine.execStop s
  | .sleep => Sys2Proof.Machine.execSleep s
  | .brk => Sys2Proof.Machine.execBreak s
  | .ei => Sys2Proof.Machine.execEi s
  | .di => Sys2Proof.Machine.execDi s
  | .add d src => Sys2Proof.Machine.execAdd d src s
  | .addc d src => Sys2Proof.Machine.execAddc d src s
  | .sub d src => Sys2Proof.Machine.execSub d src s
  | .subc d src => Sys2Proof.Machine.execSubc d src s
  | .inc r => Sys2Proof.Machine.execInc r s
  | .dec r => Sys2Proof.Machine.execDec r s
  | .and d src => Sys2Proof.Machine.execAnd d src s
  | .or d src => Sys2Proof.Machine.execOr d src s
  | .xor d src => Sys2Proof.Machine.execXor d src s
  | .cmp d src => Sys2Proof.Machine.execCmp d src s
  | .cmpi r imm => Sys2Proof.Machine.execCmpi r imm s
  | .jmp addr => Sys2Proof.Machine.execJmp addr s
  | .call addr => Sys2Proof.Machine.execCall addr s
  | .ret => Sys2Proof.Machine.execRet s
  | .reti => Sys2Proof.Machine.execReti s
  | .brc addr => Sys2Proof.Machine.execBrc addr s
  | .brnc addr => Sys2Proof.Machine.execBrnc addr s
  | .brz addr => Sys2Proof.Machine.execBrz addr s
  | .brnz addr => Sys2Proof.Machine.execBrnz addr s
  | .mov d src => Sys2Proof.Machine.execMov d src s
  | .ldi r imm => Sys2Proof.Machine.execLdi r imm s
  | .ld r addr => Sys2Proof.Machine.execLd r addr s
  | .st r addr => Sys2Proof.Machine.execSt r addr s
  | .lpm r addr => Sys2Proof.Machine.execLpm r addr s
  | .ldd r ph pl => Sys2Proof.Machine.execLdd r ph pl s
  | .std r ph pl => Sys2Proof.Machine.execStd r ph pl s
  | .lpmd r ph pl => Sys2Proof.Machine.execLpmd r ph pl s
  | .push r => Sys2Proof.Machine.execPush r s
  | .pop r => Sys2Proof.Machine.execPop r s
  | .inp r port => Sys2Proof.Machine.execIn r port s
  | .out r port => Sys2Proof.Machine.execOut r port s

end Sys2Proof.Machine
end

