-- ==== Sys2Proof/Machine/Cycle.lean ====
section
/-! DEFINITION. The execution cycle (40_execution_cycle.md R120 to R129), which Step.lean's `step` calls. -/

namespace Sys2Proof.Machine

/-- Step part 4 and 5: fetch the opcode byte, fetch its class's operand bytes, execute; an unassigned
opcode byte faults with only that byte consumed (40_execution_cycle.md R124, R125). -/
def fetchExecute (s : State) : Result :=
  let opcode := fetch8 s
  match s.config.opcodeMap.inverse opcode.1 with
  | none => .fault (.illegalOpcode opcode.1 opcode.2)
  | some m =>
    let operands := fetchBytes m.operandClass.operandBytes opcode.2
    exec (assemble m (operands.1.getD 0 0) (operands.1.getD 1 0) (operands.1.getD 2 0)) operands.2

/-- Step parts 2 to 5, of a core that is not Stopped (40_execution_cycle.md R122 to R126). With the
parameter `DISPATCH_THEN_FETCH` false, a dispatching step ends after part 2 (R126). -/
def cycleAwake (s : State) : Result :=
  match s.dueLine with
  | some l =>
    if s.config.dispatchThenFetch then fetchExecute (dispatch l s) else .next (dispatch l s)
  | none => if s.status = .sleeping then .next s else fetchExecute s

/-- One step (40_execution_cycle.md R120), part 1: a Stopped core does nothing (R121). -/
def cycle (s : State) : Result :=
  if s.status = .stopped then .next s.clearEvents else cycleAwake s.clearEvents

/-- `s`, changed as little as it takes for the next step to fetch: a core that would not fetch is
Running, and no dispatch ends the step before its fetch (assumption log 6). -/
def fetchReady (s : State) : State :=
  match s.dueLine with
  | none => s.setStatus .running
  | some _ =>
    let awake := if s.status = .stopped then s.setStatus .running else s
    if s.config.dispatchThenFetch then awake else (awake.setStatus .running).setIe false

/-- Where the next step fetches its opcode byte: at the vector if it dispatches, else at `pc`. -/
def fetchAddr (s : State) : Addr :=
  match s.dueLine with
  | some l => vector s.config l
  | none => s.pc

/-- Put bytes where the next step fetches. -/
def placeAtFetch (s : State) (bytes : List Byte) : State :=
  let ready := fetchReady s
  { ready with pmem := ready.pmem.writeBytes (fetchAddr ready) bytes }

end Sys2Proof.Machine
end

