-- ==== Sys2Proof/Machine/Step.lean ====
section
/-! DEFINITION. The machine's step and the placing of one instruction where it fetches. -/

namespace Sys2Proof.Machine

/-- One step of the core (40_execution_cycle.md R120). -/
def step (s : State) : Host.Outcome State Fault Refusal := cycle s

/-- `s` with the instruction of a table word stored where `step` fetches its next instruction
(assumption log 6). -/
def State.withFetchWord (s : State) (nbits w : Nat) : State := placeAtFetch s (tableBytes nbits w)

end Sys2Proof.Machine
end

