-- ==== Sys2Proof/Machine/Disasm.lean ====
section
/-! DEFINITION. The disassembler (30_encoding.md R100 to R108). It reads program memory and nothing
else of the core, and it uses the decoder of the execution cycle (R91). -/

namespace Sys2Proof.Machine

/-! ### Rendering (30_encoding.md R94, R103; the spelling of operands is the spec's own choice, D6) -/

/-- A mnemonic in upper case. -/
def mnemonicText : Mnemonic → String
  | .nop => "NOP"
  | .stop => "STOP"
  | .sleep => "SLEEP"
  | .brk => "BREAK"
  | .ei => "EI"
  | .di => "DI"
  | .add => "ADD"
  | .addc => "ADDC"
  | .sub => "SUB"
  | .subc => "SUBC"
  | .inc => "INC"
  | .dec => "DEC"
  | .and => "AND"
  | .or => "OR"
  | .xor => "XOR"
  | .cmp => "CMP"
  | .cmpi => "CMPI"
  | .jmp => "JMP"
  | .call => "CALL"
  | .ret => "RET"
  | .reti => "RETI"
  | .brc => "BRC"
  | .brnc => "BRNC"
  | .brz => "BRZ"
  | .brnz => "BRNZ"
  | .mov => "MOV"
  | .ldi => "LDI"
  | .ld => "LD"
  | .st => "ST"
  | .lpm => "LPM"
  | .ldd => "LDD"
  | .std => "STD"
  | .lpmd => "LPMD"
  | .push => "PUSH"
  | .pop => "POP"
  | .inp => "IN"
  | .out => "OUT"

/-- One upper-case hexadecimal digit. -/
def hexDigit (n : Nat) : Char := Char.ofNat (if n < 10 then 48 + n else 55 + n)

/-- `R0` to `R15`. -/
def regText (r : RegIdx) : String :=
  String.ofList (if r.val < 10 then ['R', hexDigit r.val] else ['R', '1', hexDigit (r.val - 10)])

/-- `0x` and exactly 2 digits. -/
def byteText (b : Byte) : String :=
  String.ofList ['0', 'x', hexDigit (b.toNat / 16), hexDigit (b.toNat % 16)]

/-- `0x` and exactly 4 digits. -/
def addrText (a : Addr) : String :=
  String.ofList ['0', 'x', hexDigit (a.toNat / 4096), hexDigit (a.toNat / 256 % 16),
    hexDigit (a.toNat / 16 % 16), hexDigit (a.toNat % 16)]

/-- The rendered operands of an instruction, in the source's order (30_encoding.md R94). -/
def operandTexts : Instr → List String
  | .nop => []
  | .stop => []
  | .sleep => []
  | .brk => []
  | .ei => []
  | .di => []
  | .add d src => [regText d, regText src]
  | .addc d src => [regText d, regText src]
  | .sub d src => [regText d, regText src]
  | .subc d src => [regText d, regText src]
  | .inc r => [regText r]
  | .dec r => [regText r]
  | .and d src => [regText d, regText src]
  | .or d src => [regText d, regText src]
  | .xor d src => [regText d, regText src]
  | .cmp d src => [regText d, regText src]
  | .cmpi r imm => [regText r, byteText imm]
  | .jmp addr => [addrText addr]
  | .call addr => [addrText addr]
  | .ret => []
  | .reti => []
  | .brc addr => [addrText addr]
  | .brnc addr => [addrText addr]
  | .brz addr => [addrText addr]
  | .brnz addr => [addrText addr]
  | .mov d src => [regText d, regText src]
  | .ldi r imm => [regText r, byteText imm]
  | .ld r addr => [regText r, addrText addr]
  | .st r addr => [regText r, addrText addr]
  | .lpm r addr => [regText r, addrText addr]
  | .ldd r ph pl => [regText r, regText ph ++ ":" ++ regText pl]
  | .std r ph pl => [regText r, regText ph ++ ":" ++ regText pl]
  | .lpmd r ph pl => [regText r, regText ph ++ ":" ++ regText pl]
  | .push r => [regText r]
  | .pop r => [regText r]
  | .inp r port => [regText r, byteText port]
  | .out r port => [regText r, byteText port]

/-- `render(I)`: the mnemonic, then one space and the operands separated by ", " (30_encoding.md R94,
R103). -/
def render (i : Instr) : String :=
  match operandTexts i with
  | [] => mnemonicText i.mnemonic
  | first :: others =>
    others.foldl (fun text operand => text ++ ", " ++ operand)
      (mnemonicText i.mnemonic ++ " " ++ first)

/-! ### The walk -/

/-- One record of a disassembly (30_encoding.md R100). -/
structure DisasmRecord where
  address : Addr
  bytes : List Byte
  text : String
  deriving DecidableEq, Repr

/-- What a disassembly answers: all its records, or the failure and no record (30_encoding.md R104). -/
inductive DisasmResult where
  | records (list : List DisasmRecord)
  | illegalOpcode (v : Byte)
  deriving DecidableEq, Repr

/-- Put a record before those of the rest of the walk; a failure stays a failure. -/
def DisasmResult.cons (r : DisasmRecord) : DisasmResult → DisasmResult
  | .records list => .records (r :: list)
  | .illegalOpcode v => .illegalOpcode v

/-- The record of an instruction of `len` bytes at `a`, its raw bytes as fetched (30_encoding.md R102). -/
def disasmRecord (m : Memory) (a : Addr) (i : Instr) (len : Nat) : DisasmRecord :=
  { address := a, bytes := (m.window a).take len, text := render i }

/-- The walk of 30_encoding.md R101 from cursor `c`, an unbounded integer, while `c < bound`. Each
instruction has at least one byte, so that `bound` is fuel enough for a whole walk. -/
def disasmWalk (map : OpcodeMap) (m : Memory) (bound : Nat) : Nat → Nat → DisasmResult
  | 0, _ => .records []
  | fuel + 1, c =>
    if c < bound then
      match decodeAt map m (BitVec.ofNat 16 c) with
      | .illegal v => .illegalOpcode v
      | .truncated => .records []
      | .ok i len =>
        (disasmWalk map m bound fuel (c + len)).cons (disasmRecord m (BitVec.ofNat 16 c) i len)
    else .records []

/-- Where a walk ends: `DISASM_BOUND` (30_encoding.md R101, R105). -/
def disasmBound (s : State) : Nat :=
  match s.config.disasmBound with
  | .full => 65536
  | .loadedLength => s.loadedLen

/-- `disassemble()` (30_encoding.md R100). -/
def disassemble (s : State) : DisasmResult :=
  disasmWalk s.config.opcodeMap s.pmem (disasmBound s) (disasmBound s) 0

end Sys2Proof.Machine
end

