-- ==== Sys2Proof/Machine/HostIface.lean ====
section
/-! DEFINITION. The host's side of the core: what it may ask for between two steps and what it gets
back (40_execution_cycle.md R128, R129, R137 to R146). -/

namespace Sys2Proof.Machine

/-! ### Each request's effect -/

/-- `load_program(bytes)` (40_execution_cycle.md R137 to R139): byte `i` becomes program address `i`,
the rest of program memory stays, and more than 65536 bytes are `ProgramTooLarge`. -/
def loadProgram (bytes : List Byte) (s : State) : Result :=
  if bytes.length ≤ 65536 then
    .next { s with pmem := s.pmem.writeBytes 0x0000 bytes, loadedLen := bytes.length }
  else .fault .programTooLarge

/-- `assert-l`: `pend[l] <- true` and nothing else (40_execution_cycle.md R141). -/
def assertLine (l : Line) (s : State) : State := s.setPend (s.pend.set l true)

/-- Install a read callback, a write callback or both on port `p` (40_execution_cycle.md R142). -/
def bindPort (p : Byte) (read write : Bool) (s : State) : State :=
  { s with
    ports :=
      { readBound := if read then insertPort p s.ports.readBound else s.ports.readBound
        writeBound := if write then insertPort p s.ports.writeBound else s.ports.writeBound } }

/-- `steps(n)`: `n` steps, ending at the first fault (40_execution_cycle.md R128, R129). -/
def steps : Nat → State → Result
  | 0, s => .next s
  | n + 1, s =>
    match step s with
    | .next t => steps n t
    | .fault f => .fault f
    | .refused r => .refused r

/-- The events of each completed step of `steps(n)`, one list for each (40_execution_cycle.md R127). -/
def stepsEvents : Nat → State → List (List Event)
  | 0, _ => []
  | n + 1, s =>
    match step s with
    | .next t => t.events :: stepsEvents n t
    | .fault _ => []
    | .refused _ => []

/-! ### Requests and responses -/

/-- What the host may ask, always between steps (40_execution_cycle.md R143, R146). The payloads of the
button and keyboard stimuli do not reach the core (R141; assumption log 8). -/
inductive HostRequest where
  | step
  | steps (n : Nat)
  | reset
  | load (bytes : List Byte)
  | irqVblank
  | irqButton (state : Nat)
  | irqKeyboard (char : Nat)
  | irqSerial
  | bind (port : Byte) (read write : Bool)
  | disassemble
  | readState
  deriving DecidableEq, Repr

/-- What the host gets back (40_execution_cycle.md R143). -/
inductive HostResponse where
  /-- `STEP_RSP(Ok)` with the step's events (R127). -/
  | stepOk (events : List Event)
  /-- `STEP_RSP(Fault IllegalOpcode(v))`. -/
  | stepFault (v : Byte)
  /-- `steps(n)`: the events of each completed step, and the fault that ended it early, if any. -/
  | stepsDone (events : List (List Event)) (fault : Option Byte)
  /-- `LOAD_RSP(Ok)`. -/
  | loadOk
  /-- `LOAD_RSP(Fault ProgramTooLarge)`. -/
  | loadTooLarge
  /-- `DISASM_RSP`. -/
  | disassembly (result : DisasmResult)
  /-- A state read (20_memory.md R76). -/
  | stateIs (s : State)
  /-- A request that answers nothing. -/
  | done
  /-- A step refused by the model; never answered (60_exceptions.md R234). -/
  | refused (r : Refusal)
  deriving DecidableEq, Repr

/-- The state a result leaves, `s` being the state before (40_execution_cycle.md R125, R127). -/
def stateAfter (s : State) : Result → State
  | .next t => t
  | .fault (.illegalOpcode _ left) => left
  | .fault .programTooLarge => s
  | .refused _ => s

/-- The answer to a step or a load that completed with answer `ok`. -/
def respond (ok : State → HostResponse) : Result → HostResponse
  | .next t => ok t
  | .fault (.illegalOpcode v _) => .stepFault v
  | .fault .programTooLarge => .loadTooLarge
  | .refused r => .refused r

/-- The answer to `steps(n)`. -/
def respondSteps (events : List (List Event)) : Result → HostResponse
  | .next _ => .stepsDone events none
  | .fault (.illegalOpcode v _) => .stepsDone events (some v)
  | .fault .programTooLarge => .loadTooLarge
  | .refused r => .refused r

/-- Serve one request: the response and the state after it. Each request completes before the next is
issued (40_execution_cycle.md R143, R146). -/
def handle (request : HostRequest) (s : State) : HostResponse × State :=
  match request with
  | .step => (respond (fun t => .stepOk t.events) (step s), stateAfter s (step s))
  | .steps n => (respondSteps (stepsEvents n s) (steps n s), stateAfter s (steps n s))
  | .reset => (.done, resetCore s)
  | .load bytes => (respond (fun _ => .loadOk) (loadProgram bytes s),
      stateAfter s (loadProgram bytes s))
  | .irqVblank => (.done, assertLine .vblank s)
  | .irqButton _ => (.done, assertLine .button s)
  | .irqKeyboard _ => (.done, assertLine .keyboard s)
  | .irqSerial => (.done, assertLine .serial s)
  | .bind port read write => (.done, bindPort port read write s)
  | .disassemble => (.disassembly (disassemble s), s)
  | .readState => (.stateIs s, s)

/-- Serve requests in order (40_execution_cycle.md R146). -/
def handleAll : List HostRequest → State → List HostResponse × State
  | [], s => ([], s)
  | request :: rest, s =>
    let now := handle request s
    let later := handleAll rest now.2
    (now.1 :: later.1, later.2)

end Sys2Proof.Machine
end

