-- ==== Sys2Proof/Safety.lean ====
section
/-! DEFINITION. What counts as a well-formed state, as an end of a run and as a safe step
(10_state.md R47, 40_execution_cycle.md R135). -/

namespace Sys2Proof.Machine

/-- A well-formed state: both memories in canonical form, the port table's lists rising, `L` within
program memory, and admissible parameters. Every width is a type's (10_state.md R47). -/
def State.wf (s : State) : Bool :=
  s.pmem.wf && s.dmem.wf && s.ports.wf && decide (s.loadedLen ≤ 65536) && s.config.wf

/-- How a run ends (40_execution_cycle.md R135). -/
inductive RunEnd where
  | final | fault | stuck | waiting
  deriving DecidableEq, Repr

/-- The end a state is in: Stopped is final; Sleeping with `IE` false is stuck; Sleeping with `IE` true
and no line pending waits on the host. Any other state makes progress when stepped
(40_execution_cycle.md R135). -/
def State.runEnd (s : State) : Option RunEnd :=
  match s.status with
  | .stopped => some .final
  | .running => none
  | .sleeping =>
    if s.ie = false then some .stuck
    else if s.pend.highest = none then some .waiting
    else none

/-- The end a step's result is: a fault ends the run and is never final (40_execution_cycle.md R135). -/
def resultEnd : Result → Option RunEnd
  | .next t => t.runEnd
  | .fault _ => some .fault
  | .refused _ => some .fault

/-- A safe result: neither a fault nor a refusal. -/
def safeResult : Result → Bool
  | .next _ => true
  | .fault _ => false
  | .refused _ => false

end Sys2Proof.Machine
end

