-- ==== Sys2Proof/Certificates/Slice0/Obligations.lean ====
section
/-! DEFINITION. The statements about TE8 CORE, each from the spec's numbered rules. A statement over
every state `s` also covers every value of the parameters of 00_scope.md R6, which `s.config` holds. -/

namespace Sys2Proof.Machine

/-! ### The vocabulary of the statements -/

/-- The bytes `form map` decode to `i`, whole, under every admissible opcode map (30_encoding.md R88),
whatever bytes follow. -/
def encodesAs (form : OpcodeMap → List Byte) (i : Instr) : Prop :=
  ∀ map : OpcodeMap, map.wf = true →
    ∀ rest : List Byte, decodeBytes map (form map ++ rest) = .ok i (form map).length

/-- The register an instruction writes, if any: the list of 10_state.md R22. -/
def destination : Instr → Option RegIdx
  | .add d _ | .addc d _ | .sub d _ | .subc d _ | .inc d | .dec d => some d
  | .and d _ | .or d _ | .xor d _ | .mov d _ | .ldi d _ | .ld d _ => some d
  | .lpm d _ | .ldd d _ _ | .lpmd d _ _ | .pop d | .inp d _ => some d
  | .nop | .stop | .sleep | .brk | .ei | .di | .cmp _ _ | .cmpi _ _ => none
  | .jmp _ | .call _ | .ret | .reti | .brc _ | .brnc _ | .brz _ | .brnz _ => none
  | .st _ _ | .std _ _ _ | .push _ | .out _ _ => none

/-- Whether an instruction writes `C` and `Z`: the lists of 10_state.md R29 and R30. -/
def writesCarryZero : Instr → Bool
  | .add _ _ | .addc _ _ | .sub _ _ | .subc _ _ | .inc _ | .dec _ => true
  | .and _ _ | .or _ _ | .xor _ _ | .cmp _ _ | .cmpi _ _ => true
  | .nop | .stop | .sleep | .brk | .ei | .di => false
  | .jmp _ | .call _ | .ret | .reti | .brc _ | .brnc _ | .brz _ | .brnz _ => false
  | .mov _ _ | .ldi _ _ | .ld _ _ | .st _ _ | .lpm _ _ => false
  | .ldd _ _ _ | .std _ _ _ | .lpmd _ _ _ | .push _ | .pop _ | .inp _ _ | .out _ _ => false

/-- The data addresses an instruction stores to, from the state it runs in: the write column of
20_memory.md R63, each address by the expression the instruction's rule gives. -/
def storedAddrs (i : Instr) (s : State) : List Addr :=
  match i with
  | .st _ addr => [addr]
  | .std _ ph pl => [ptrAddr ph pl s]
  | .push _ => [s.sp]
  | .call _ => [s.sp, s.sp - 1]
  | .nop | .stop | .sleep | .brk | .ei | .di => []
  | .add _ _ | .addc _ _ | .sub _ _ | .subc _ _ | .inc _ | .dec _ => []
  | .and _ _ | .or _ _ | .xor _ _ | .cmp _ _ | .cmpi _ _ => []
  | .jmp _ | .ret | .reti | .brc _ | .brnc _ | .brz _ | .brnz _ => []
  | .mov _ _ | .ldi _ _ | .ld _ _ | .lpm _ _ | .ldd _ _ _ | .lpmd _ _ _ => []
  | .pop _ | .inp _ _ | .out _ _ => []

/-- What an instruction leaves in `sp` (10_state.md R33; 20_memory.md R58 to R61). -/
def spAfter (i : Instr) (s : State) : Addr :=
  match i with
  | .push _ => s.sp - 1
  | .pop _ => s.sp + 1
  | .call _ => s.sp - 2
  | .ret | .reti => s.sp + 2
  | .nop | .stop | .sleep | .brk | .ei | .di => s.sp
  | .add _ _ | .addc _ _ | .sub _ _ | .subc _ _ | .inc _ | .dec _ => s.sp
  | .and _ _ | .or _ _ | .xor _ _ | .cmp _ _ | .cmpi _ _ => s.sp
  | .jmp _ | .brc _ | .brnc _ | .brz _ | .brnz _ => s.sp
  | .mov _ _ | .ldi _ _ | .ld _ _ | .st _ _ | .lpm _ _ => s.sp
  | .ldd _ _ _ | .std _ _ _ | .lpmd _ _ _ | .inp _ _ | .out _ _ => s.sp

/-- Whether an instruction leaves `pc` at the next instruction in a given state (10_state.md R27). -/
def fallsThrough (i : Instr) (s : State) : Bool :=
  match i with
  | .jmp _ | .call _ | .ret | .reti => false
  | .brc _ => !s.carry
  | .brnc _ => s.carry
  | .brz _ => !s.zero
  | .brnz _ => s.zero
  | .nop | .stop | .sleep | .brk | .ei | .di => true
  | .add _ _ | .addc _ _ | .sub _ _ | .subc _ _ | .inc _ | .dec _ => true
  | .and _ _ | .or _ _ | .xor _ _ | .cmp _ _ | .cmpi _ _ => true
  | .mov _ _ | .ldi _ _ | .ld _ _ | .st _ _ | .lpm _ _ => true
  | .ldd _ _ _ | .std _ _ _ | .lpmd _ _ _ | .push _ | .pop _ | .inp _ _ | .out _ _ => true

/-- The priority order of the lines, the highest first (60_exceptions.md R237). -/
def Line.rank : Line → Nat
  | .vblank => 0
  | .button => 1
  | .keyboard => 2
  | .serial => 3

/-- Push bytes one after the other. -/
def pushAll : List Byte → State → State
  | [], s => s
  | v :: rest, s => pushAll rest (push8 v s)

/-- Pop `n` bytes one after the other, in the order they come. -/
def popMany : Nat → State → List Byte × State
  | 0, s => ([], s)
  | n + 1, s => ((pop8 s).1 :: (popMany n (pop8 s).2).1, (popMany n (pop8 s).2).2)

/-- From cursor `c`, the walk of 30_encoding.md R101 passes the records of `rs`, each of the instruction
that decodes at its cursor below the bound, and arrives at cursor `d`. -/
def walkReaches (s : State) : Nat → List DisasmRecord → Nat → Prop
  | c, [], d => c = d
  | c, r :: rest, d =>
    c < disasmBound s ∧ ∃ (i : Instr) (len : Nat),
      decodeAt s.config.opcodeMap s.pmem (BitVec.ofNat 16 c) = .ok i len ∧
      r = disasmRecord s.pmem (BitVec.ofNat 16 c) i len ∧ walkReaches s (c + len) rest d

end Sys2Proof.Machine

open Sys2Proof Sys2Proof.Machine

/-! ### Reset -/

/-- 70_reset_and_hazards.md R260 with 10_state.md R24, R34, R36, from any state and by the host's request;
the model's own `State.reset` is a state that a reset leaves. -/
def Obligations.ResetSetsEveryValue : Prop :=
  (∀ s t : State, t = (handle .reset s).2 →
    (∀ i : RegIdx, t.reg i = 0x00) ∧ t.pc = 0x0000 ∧ t.sp = 0xFFFF ∧
    t.carry = false ∧ t.zero = false ∧ t.ie = false ∧ (∀ l : Line, t.pend.get l = false) ∧
    t.status = .running ∧ (∀ a : Addr, t.readData a = 0x00) ∧ t.pmem = s.pmem) ∧
  resetCore State.reset = State.reset

/-- 70_reset_and_hazards.md R262: right after a reset, whatever lines the host asserts, the first step
fetches at 0x0000. Here the instruction at 0x0000 is any one that decodes. -/
def Obligations.FirstStepAfterResetFetchesAtZero : Prop :=
  ∀ (s : State) (p : Pending) (i : Instr) (len : Nat),
    decodeAt s.config.opcodeMap s.pmem 0x0000 = .ok i len →
    step { resetCore s with pend := p } =
      exec i { resetCore s with pend := p, pc := BitVec.ofNat 16 len }

/-! ### Registers and memory -/

/-- 10_state.md R21 and 20_memory.md R53: no register is aliased or hardwired, a data write sets one byte,
at every address, and program memory is another space. -/
def Obligations.StorageReadsBackItsLastWrite : Prop :=
  (∀ (s : State) (i j : RegIdx) (v : Byte),
    (s.setReg i v).reg j = if j = i then v else s.reg j) ∧
  (∀ (s : State) (a b : Addr) (v : Byte),
    (s.writeData a v).readData b = (if b = a then v else s.readData b) ∧
    (s.writeData a v).readProgram b = s.readProgram b)

/-! ### System instructions -/

/-- 41_system.md R150, R151, R152, R154, R155. -/
def Obligations.SystemInstructionsDoTheirOneEffect : Prop :=
  ∀ s : State,
    (encodesAs (fun m => [m.byte .nop]) .nop ∧ exec .nop s = .next s) ∧
    (encodesAs (fun m => [m.byte .stop]) .stop ∧
      exec .stop s = .next { s with status := .stopped }) ∧
    (encodesAs (fun m => [m.byte .sleep]) .sleep ∧
      exec .sleep s = .next { s with status := .sleeping }) ∧
    (encodesAs (fun m => [m.byte .ei]) .ei ∧ exec .ei s = .next { s with ie := true }) ∧
    (encodesAs (fun m => [m.byte .di]) .di ∧ exec .di s = .next { s with ie := false })

/-- 41_system.md R153: no effect but the event, which is the spec's own decision D22. -/
def Obligations.BreakOnlyRecordsItsAddress : Prop :=
  encodesAs (fun m => [m.byte .brk]) .brk ∧
  ∀ s : State, exec .brk s = .next { s with events := s.events ++ [.brk (s.pc - 1)] }

/-! ### Arithmetic -/

/-- 42_arithmetic.md R160, R176 (ADD) and R161 (ADDC, in the two steps the source describes). -/
def Obligations.AddAndAddcGiveSumCarryAndZero : Prop :=
  ∀ (d src : RegIdx) (s : State) (t1 : Nat), t1 = (s.reg d).toNat + (s.reg src).toNat →
    (encodesAs (fun m => [m.byte .add, nibbles d src]) (.add d src) ∧
      exec (.add d src) s = .next { s.setReg d (BitVec.ofNat 8 t1) with
        carry := decide (256 ≤ t1), zero := decide (t1 % 256 = 0) }) ∧
    (encodesAs (fun m => [m.byte .addc, nibbles d src]) (.addc d src) ∧
      (s.carry = false → exec (.addc d src) s = .next { s.setReg d (BitVec.ofNat 8 t1) with
        carry := decide (256 ≤ t1), zero := decide (t1 % 256 = 0) }) ∧
      (s.carry = true → exec (.addc d src) s =
        .next { s.setReg d (BitVec.ofNat 8 (t1 % 256 + 1)) with
          carry := decide (256 ≤ t1) || decide (256 ≤ t1 % 256 + 1)
          zero := decide ((t1 % 256 + 1) % 256 = 0) }))

/-- 42_arithmetic.md R172, R173, which the spec derives from R161 and R163: the closed forms of ADDC and
SUBC, over unbounded integers. -/
def Obligations.CarryInClosedForms : Prop :=
  ∀ (d src : RegIdx) (s : State) (a b cin : Nat),
    a = (s.reg d).toNat → b = (s.reg src).toNat → cin = s.carry.toNat →
    exec (.addc d src) s = .next { s.setReg d (BitVec.ofNat 8 (a + b + cin)) with
      carry := decide (256 ≤ a + b + cin), zero := decide ((a + b + cin) % 256 = 0) } ∧
    exec (.subc d src) s = .next { s.setReg d (BitVec.ofInt 8 ((a : Int) - b - cin)) with
      carry := decide (a < b + cin), zero := decide (((a : Int) - b - cin) % 256 = 0) }

/-- 42_arithmetic.md R162 (SUB) and R163 (SUBC, in two steps; `r` is the byte after the first step). -/
def Obligations.SubAndSubcGiveDifferenceBorrowAndZero : Prop :=
  ∀ (d src : RegIdx) (s : State) (a b r : Nat), a = (s.reg d).toNat → b = (s.reg src).toNat →
    r = (a + 256 - b) % 256 →
    (encodesAs (fun m => [m.byte .sub, nibbles d src]) (.sub d src) ∧
      exec (.sub d src) s = .next { s.setReg d (BitVec.ofNat 8 r) with
        carry := decide (a < b), zero := decide (r = 0) }) ∧
    (encodesAs (fun m => [m.byte .subc, nibbles d src]) (.subc d src) ∧
      (s.carry = false → exec (.subc d src) s = .next { s.setReg d (BitVec.ofNat 8 r) with
        carry := decide (a < b), zero := decide (r = 0) }) ∧
      (s.carry = true → exec (.subc d src) s =
        .next { s.setReg d (BitVec.ofNat 8 ((r + 255) % 256)) with
          carry := decide (a < b) || decide (r < 1)
          zero := decide ((r + 255) % 256 = 0) }))

/-- 42_arithmetic.md R164, R165, with every value of the ignored nibble. -/
def Obligations.IncAndDecMoveByOne : Prop :=
  ∀ (x r : RegIdx) (s : State) (a : Nat), a = (s.reg r).toNat →
    (encodesAs (fun m => [m.byte .inc, nibbles x r]) (.inc r) ∧
      exec (.inc r) s = .next { s.setReg r (BitVec.ofNat 8 (a + 1)) with
        carry := decide (256 ≤ a + 1), zero := decide ((a + 1) % 256 = 0) }) ∧
    (encodesAs (fun m => [m.byte .dec, nibbles x r]) (.dec r) ∧
      exec (.dec r) s = .next { s.setReg r (BitVec.ofNat 8 (a + 255)) with
        carry := decide (a < 1), zero := decide (a = 1) })

/-- 42_arithmetic.md R174: ADD of the low bytes and then ADDC of the high bytes is the 16-bit sum, with
its carry, and `Z` from the high byte only; SUB and SUBC likewise. The high bytes' registers are not
the one the low result goes to. -/
def Obligations.TwoByteAddAndSubtract : Prop :=
  ∀ (h1 l1 h2 l2 : RegIdx) (s t u : State), h1 ≠ l1 → h2 ≠ l1 →
    (exec (.add l1 l2) s = .next t → exec (.addc h1 h2) t = .next u →
      ∀ sum : Nat, sum = (ptrAddr h1 l1 s).toNat + (ptrAddr h2 l2 s).toNat →
        ptrAddr h1 l1 u = BitVec.ofNat 16 sum ∧ u.carry = decide (65536 ≤ sum) ∧
        u.zero = decide (u.reg h1 = 0)) ∧
    (exec (.sub l1 l2) s = .next t → exec (.subc h1 h2) t = .next u →
      ptrAddr h1 l1 u = ptrAddr h1 l1 s - ptrAddr h2 l2 s ∧
      u.carry = decide ((ptrAddr h1 l1 s).toNat < (ptrAddr h2 l2 s).toNat) ∧
      u.zero = decide (u.reg h1 = 0))

/-! ### Logic and compare -/

/-- 43_logic_compare.md R180, R181, R182. -/
def Obligations.LogicClearsCarry : Prop :=
  ∀ (d src : RegIdx) (s : State) (a b : Byte), a = s.reg d → b = s.reg src →
    (encodesAs (fun m => [m.byte .and, nibbles d src]) (.and d src) ∧
      exec (.and d src) s = .next { s.setReg d (a &&& b) with
        carry := false, zero := decide (a &&& b = 0) }) ∧
    (encodesAs (fun m => [m.byte .or, nibbles d src]) (.or d src) ∧
      exec (.or d src) s = .next { s.setReg d (a ||| b) with
        carry := false, zero := decide (a ||| b = 0) }) ∧
    (encodesAs (fun m => [m.byte .xor, nibbles d src]) (.xor d src) ∧
      exec (.xor d src) s = .next { s.setReg d (a ^^^ b) with
        carry := false, zero := decide (a ^^^ b = 0) })

/-- 43_logic_compare.md R183: no register is written, the flags are those SUB leaves on the same
registers, and they order the two values. -/
def Obligations.CmpSetsFlagsOnly : Prop :=
  ∀ (d src : RegIdx) (s t : State) (a b : Nat), a = (s.reg d).toNat → b = (s.reg src).toNat →
    t = { s with carry := decide (a < b), zero := decide (a = b) } →
    encodesAs (fun m => [m.byte .cmp, nibbles d src]) (.cmp d src) ∧
    exec (.cmp d src) s = .next t ∧
    (∀ u : State, exec (.sub d src) s = .next u → t.carry = u.carry ∧ t.zero = u.zero) ∧
    (t.carry = true ↔ a < b) ∧ (t.zero = true ↔ a = b) ∧
    (t.carry = false ∧ t.zero = false ↔ b < a)

/-- 43_logic_compare.md R184; that the high nibble `x` is ignored is the spec's own reading D5. -/
def Obligations.CmpiSetsFlagsOnly : Prop :=
  ∀ (x r : RegIdx) (imm : Byte) (s : State),
    encodesAs (fun m => [m.byte .cmpi, nibbles x r, imm]) (.cmpi r imm) ∧
    exec (.cmpi r imm) s = .next { s with
      carry := decide ((s.reg r).toNat < imm.toNat), zero := decide (s.reg r = imm) }

/-! ### Control transfer -/

/-- 44_control.md R190, R194, R195, R196, R197. -/
def Obligations.JumpsAndBranchesSetPcOnly : Prop :=
  ∀ (addr : Addr) (s : State),
    (encodesAs (fun m => [m.byte .jmp, hi8 addr, lo8 addr]) (.jmp addr) ∧
      exec (.jmp addr) s = .next { s with pc := addr }) ∧
    (encodesAs (fun m => [m.byte .brc, hi8 addr, lo8 addr]) (.brc addr) ∧
      exec (.brc addr) s = .next { s with pc := if s.carry = true then addr else s.pc }) ∧
    (encodesAs (fun m => [m.byte .brnc, hi8 addr, lo8 addr]) (.brnc addr) ∧
      exec (.brnc addr) s = .next { s with pc := if s.carry = false then addr else s.pc }) ∧
    (encodesAs (fun m => [m.byte .brz, hi8 addr, lo8 addr]) (.brz addr) ∧
      exec (.brz addr) s = .next { s with pc := if s.zero = true then addr else s.pc }) ∧
    (encodesAs (fun m => [m.byte .brnz, hi8 addr, lo8 addr]) (.brnz addr) ∧
      exec (.brnz addr) s = .next { s with pc := if s.zero = false then addr else s.pc })

/-- 44_control.md R191, R192, R193: RETI also sets `IE`; none touches `C`, `Z` or `status`.
The byte order of the push is the parameter `PUSH16_ORDER` (D4) and no part of this statement. -/
def Obligations.CallRetAndRetiUseTheStack : Prop :=
  ∀ (addr : Addr) (s : State),
    (encodesAs (fun m => [m.byte .call, hi8 addr, lo8 addr]) (.call addr) ∧
      exec (.call addr) s = .next { push16 s.pc s with pc := addr }) ∧
    (encodesAs (fun m => [m.byte .ret]) .ret ∧
      exec .ret s = .next { s with pc := (pop16 s).1, sp := s.sp + 2 }) ∧
    (encodesAs (fun m => [m.byte .reti]) .reti ∧
      exec .reti s = .next { s with pc := (pop16 s).1, sp := s.sp + 2, ie := true })

/-- 44_control.md R192: "`CALL target` then `RET` returns `pc` to the instruction immediately after the
CALL" and `sp` to where it was, for both push orders (the order is the spec's own decision D4) and every
`sp`, also where it wraps. -/
def Obligations.CallThenRetReturns : Prop :=
  ∀ (addr : Addr) (s t : State), exec (.call addr) s = .next t →
    exec .ret t = .next { t with pc := s.pc, sp := s.sp }

/-! ### The stack -/

/-- 20_memory.md R60, R61 for both values of the parameter `PUSH16_ORDER` (the default is the spec's own
decision D4): where each byte goes, that nothing else is written, and that a pop gives the value back. -/
def Obligations.Push16LayoutAndInverse : Prop :=
  ∀ (v : Addr) (s : State),
    (push16 v s).sp = s.sp - 2 ∧
    (s.config.push16Order = .highFirst →
      (push16 v s).readData s.sp = hi8 v ∧ (push16 v s).readData (s.sp - 1) = lo8 v) ∧
    (s.config.push16Order = .lowFirst →
      (push16 v s).readData s.sp = lo8 v ∧ (push16 v s).readData (s.sp - 1) = hi8 v) ∧
    (∀ a : Addr, a ≠ s.sp → a ≠ s.sp - 1 → (push16 v s).readData a = s.readData a) ∧
    (pop16 (push16 v s)).1 = v ∧ (pop16 (push16 v s)).2.sp = s.sp

/-- 20_memory.md R62: popping as many bytes as were pushed yields them in reverse and restores `sp`, for
up to a whole memory of bytes; a byte push moves `sp` by 1 and a 16-bit push by 2. -/
def Obligations.StackRoundTrip : Prop :=
  ∀ (vs : List Byte) (s : State), vs.length ≤ 65536 →
    (popMany vs.length (pushAll vs s)).1 = vs.reverse ∧
    (popMany vs.length (pushAll vs s)).2.sp = s.sp ∧
    (pushAll vs s).sp = s.sp - BitVec.ofNat 16 vs.length ∧
    ∀ w : Addr, (push16 w s).sp = s.sp - 2

/-- 20_memory.md R58, R59 and 46_stack_io.md R220, R221, with every value of the ignored nibble. -/
def Obligations.PushAndPopMoveOneByte : Prop :=
  (∀ (v : Byte) (s : State),
    push8 v s = { s.writeData s.sp v with sp := s.sp - 1 } ∧
    pop8 s = (s.readData (s.sp + 1), { s with sp := s.sp + 1 })) ∧
  (∀ (x r : RegIdx) (s : State),
    (encodesAs (fun m => [m.byte .push, nibbles x r]) (.push r) ∧
      exec (.push r) s = .next (push8 (s.reg r) s)) ∧
    (encodesAs (fun m => [m.byte .pop, nibbles x r]) (.pop r) ∧
      exec (.pop r) s = .next ((pop8 s).2.setReg r (pop8 s).1)))

/-! ### Data transfer -/

/-- 45_data_transfer.md R205: no flag is written. -/
def Obligations.MovCopiesRegister : Prop :=
  ∀ (d src : RegIdx) (s : State),
    encodesAs (fun m => [m.byte .mov, nibbles d src]) (.mov d src) ∧
    exec (.mov d src) s = .next (s.setReg d (s.reg src))

/-- 45_data_transfer.md R206, R207, R208, R209; that the high nibble `x` is ignored is the spec's own
reading D5. -/
def Obligations.ImmediateAndAbsoluteTransfers : Prop :=
  ∀ (x r : RegIdx) (imm : Byte) (addr : Addr) (s : State),
    (encodesAs (fun m => [m.byte .ldi, nibbles x r, imm]) (.ldi r imm) ∧
      exec (.ldi r imm) s = .next (s.setReg r imm)) ∧
    (encodesAs (fun m => [m.byte .ld, nibbles x r, hi8 addr, lo8 addr]) (.ld r addr) ∧
      exec (.ld r addr) s = .next (s.setReg r (s.readData addr))) ∧
    (encodesAs (fun m => [m.byte .st, nibbles x r, hi8 addr, lo8 addr]) (.st r addr) ∧
      exec (.st r addr) s = .next (s.writeData addr (s.reg r))) ∧
    (encodesAs (fun m => [m.byte .lpm, nibbles x r, hi8 addr, lo8 addr]) (.lpm r addr) ∧
      exec (.lpm r addr) s = .next (s.setReg r (s.readProgram addr)))

/-- 45_data_transfer.md R210, R211, R212 and 30_encoding.md R84: the address is taken before any write,
and the data register may be a pointer register (D20); that the high nibble `x` is ignored is D5. -/
def Obligations.PointerPairTransfers : Prop :=
  ∀ (x r ph pl : RegIdx) (s : State) (ea : Addr),
    ea.toNat = (s.reg ph).toNat * 256 + (s.reg pl).toNat →
    (encodesAs (fun m => [m.byte .ldd, nibbles x r, nibbles ph pl]) (.ldd r ph pl) ∧
      exec (.ldd r ph pl) s = .next (s.setReg r (s.readData ea))) ∧
    (encodesAs (fun m => [m.byte .std, nibbles x r, nibbles ph pl]) (.std r ph pl) ∧
      exec (.std r ph pl) s = .next (s.writeData ea (s.reg r))) ∧
    (encodesAs (fun m => [m.byte .lpmd, nibbles x r, nibbles ph pl]) (.lpmd r ph pl) ∧
      exec (.lpmd r ph pl) s = .next (s.setReg r (s.readProgram ea)))

/-- 20_memory.md R71 with 45_data_transfer.md R207, R208, R210, R211: a load returns the byte of the
last store to its address, whichever of the two addressing modes either one uses. The ordering is the
spec's own decision D26, and that the loaded register may be a pointer register is D20. -/
def Obligations.LoadReturnsLastStore : Prop :=
  ∀ (r q ph pl : RegIdx) (addr : Addr) (s t : State), ptrAddr ph pl s = addr →
    exec (.st r addr) s = .next t ∨ exec (.std r ph pl) s = .next t →
    (exec (.ld q addr) t = .next (t.setReg q (s.reg r)) ∧
      exec (.ldd q ph pl) t = .next (t.setReg q (s.reg r))) ∧
    ∀ other : Addr, other ≠ addr →
      exec (.ld q other) t = .next (t.setReg q (s.readData other))

/-! ### Ports -/

/-- 46_stack_io.md R222 with 20_memory.md R66, R67: an unbound port reads 0x00 and calls nothing; a bound
one invokes its callback once and reads a free byte, never the same draw twice. The events (D14, D28)
and the ignored nibble (D5) are the spec's own decisions; the numbering of the draws and the list of
the callbacks invoked are the model's (assumption logs 2, 3). -/
def Obligations.InReadsPort : Prop :=
  ∀ (x r : RegIdx) (p : Byte) (s : State),
    encodesAs (fun m => [m.byte .inp, nibbles x r, p]) (.inp r p) ∧
    (p ∉ s.ports.readBound → exec (.inp r p) s =
      .next { s.setReg r 0x00 with events := s.events ++ [.portRd p 0x00] }) ∧
    (p ∈ s.ports.readBound → ∃ v : Byte, v = Config.portDraw s.draws ∧ exec (.inp r p) s =
      .next { s.setReg r v with
        events := s.events ++ [.portRd p v], draws := s.draws + 1
        portCalls := s.portCalls ++ [.portRd p v] })

/-- 46_stack_io.md R223 with 20_memory.md R67, R68: OUT changes nothing of the core; the write is an
event (D14), and it invokes the host's callback once if the port is bound when OUT runs and not at all
if it is not. That the high nibble `x` is ignored is the spec's own reading D5; the list of the callbacks
invoked is the model's (assumption log 3). -/
def Obligations.OutWritesPort : Prop :=
  ∀ (x r : RegIdx) (p : Byte) (s : State),
    encodesAs (fun m => [m.byte .out, nibbles x r, p]) (.out r p) ∧
    exec (.out r p) s = .next { s with
      events := s.events ++ [.portWr p (s.reg r)]
      portCalls := s.portCalls ++
        (if p ∈ s.ports.writeBound then [.portWr p (s.reg r)] else []) }

/-- 20_memory.md R67: an unbound port is inert, and every port is unbound until the host binds it. That a
discarded write is an event still is the spec's own decision D14; the list of the callbacks invoked is
the model's (assumption log 3). -/
def Obligations.UnboundPortsAreInert : Prop :=
  (∀ (p v : Byte) (s : State),
    (p ∉ s.ports.readBound → portRead p s = (0x00, s)) ∧
    (p ∉ s.ports.writeBound →
      portWrite p v s = { s with events := s.events ++ [.portWr p v] })) ∧
  (∀ p : Byte, p ∉ State.reset.ports.readBound ∧ p ∉ State.reset.ports.writeBound)

/-- 40_execution_cycle.md R142: a binding adds the callbacks it installs and changes nothing else; it
affects later accesses only, so the callbacks the last step invoked stay as they were. That what was
bound stays bound is the model's choice (assumption log 7). -/
def Obligations.BindingInstallsCallbacks : Prop :=
  ∀ (p q : Byte) (read write : Bool) (s t : State), t = (handle (.bind p read write) s).2 →
    (q ∈ t.ports.readBound ↔ q ∈ s.ports.readBound ∨ (read = true ∧ q = p)) ∧
    (q ∈ t.ports.writeBound ↔ q ∈ s.ports.writeBound ∨ (write = true ∧ q = p)) ∧
    { t with ports := s.ports } = s ∧ t.portCalls = s.portCalls

/-! ### Frames: what an instruction leaves unchanged -/

/-- 10_state.md R22: an instruction changes no register but its destination; the other instructions
change none. -/
def Obligations.OnlyTheDestinationRegisterChanges : Prop :=
  ∀ (i : Instr) (s t : State), exec i s = .next t →
    ∀ r : RegIdx, destination i ≠ some r → t.reg r = s.reg r

/-- 10_state.md R29, R30, R31: `C` and `Z` change only by the instructions those rules list; `IE` is set
by EI and RETI, cleared by DI and kept by all others. -/
def Obligations.FlagsChangeOnlyByTheirWriters : Prop :=
  ∀ (i : Instr) (s t : State), exec i s = .next t →
    (writesCarryZero i = false → t.carry = s.carry ∧ t.zero = s.zero) ∧
    t.ie = (if i = .ei ∨ i = .reti then true else if i = .di then false else s.ie)

/-- 20_memory.md R63, R51: the bytes an instruction stores to are those `storedAddrs` computes; every
other data byte reads as before, and program memory is never written. -/
def Obligations.OnlyTheStoredBytesChange : Prop :=
  ∀ (i : Instr) (s t : State), exec i s = .next t →
    (∀ a : Addr, a ∉ storedAddrs i s → t.readData a = s.readData a) ∧ t.pmem = s.pmem

/-- 10_state.md R27, R33: `sp` moves only by the stack instructions, and `pc` stays at the next
instruction unless the instruction is a taken control transfer. -/
def Obligations.PcAndSpMoveOnlyByTheirWriters : Prop :=
  ∀ (i : Instr) (s t : State), exec i s = .next t →
    t.sp = spAfter i s ∧ (fallsThrough i s = true → t.pc = s.pc)

/-- 10_state.md R35, R38, R43; 00_scope.md R6: no instruction touches a pending line, a port binding, the
loaded length or a parameter; only STOP and SLEEP write `status`; only BREAK, IN and OUT add events,
one each (40_execution_cycle.md R127, D28); only IN draws a free value, and only IN and OUT invoke a
callback. -/
def Obligations.RestOfTheStateIsKept : Prop :=
  ∀ (i : Instr) (s t : State), exec i s = .next t →
    t.pend = s.pend ∧ t.ports = s.ports ∧ t.loadedLen = s.loadedLen ∧ t.config = s.config ∧
    t.status = (if i = .stop then .stopped else if i = .sleep then .sleeping else s.status) ∧
    (i.mnemonic ≠ .brk → i.mnemonic ≠ .inp → i.mnemonic ≠ .out → t.events = s.events) ∧
    (i.mnemonic ≠ .inp → t.draws = s.draws) ∧
    (i.mnemonic ≠ .inp → i.mnemonic ≠ .out → t.portCalls = s.portCalls)

/-- 10_state.md R44 and 20_memory.md R63: no instruction reads a pending line; program memory is read by
LPM and LPMD only, and data memory only by the instructions of the two data columns of R63: changing
what an instruction does not read changes nothing else of what it leaves. -/
def Obligations.InstructionsIgnoreWhatTheyDoNotRead : Prop :=
  ∀ (i : Instr) (s t : State) (p : Pending) (m : Memory), exec i s = .next t →
    exec i { s with pend := p } = .next { t with pend := p } ∧
    (i.mnemonic ≠ .lpm → i.mnemonic ≠ .lpmd →
      exec i { s with pmem := m } = .next { t with pmem := m }) ∧
    (i.mnemonic ∉ [.ld, .ldd, .st, .std, .push, .pop, .call, .ret, .reti] →
      exec i { s with dmem := m } = .next { t with dmem := m })

/-! ### The step -/

/-- 40_execution_cycle.md R124: the bytes at `pc` are fetched, `pc` moves past them, and the instruction
they decode to runs. -/
def Obligations.StepRunsTheDecodedInstruction : Prop :=
  ∀ (s : State) (i : Instr) (len : Nat), s.status = .running → s.dueLine = none →
    decodeAt s.config.opcodeMap s.pmem s.pc = .ok i len →
    step s = exec i { s with pc := s.pc + BitVec.ofNat 16 len, events := [], portCalls := [] }

/-- 40_execution_cycle.md R121, R123: nothing happens in a Stopped step, also with `IE` true and a line
pending, nor in a Sleeping step that services no interrupt. -/
def Obligations.StoppedAndSleepingStepsDoNothing : Prop :=
  ∀ s : State, s.status = .stopped ∨ (s.status = .sleeping ∧ s.dueLine = none) →
    step s = .next { s with events := [], portCalls := [] }

/-- 60_exceptions.md R238 with R237: which line is taken, what taking it leaves, and the vectors. That the
serial line's vector is the parameter `VEC_SERIAL` is a choice and no rule of the original design: the
spec's own decision D3 (92_eei_decisions.md, R237), assumption log 1, DESIGN CHOICE. The byte order of the
push is the parameter `PUSH16_ORDER`, D4, and no part of this statement. -/
def Obligations.DispatchTakesTheHighestPendingLine : Prop :=
  ∀ (s : State) (l : Line),
    (s.dueLine = some l ↔ s.ie = true ∧ s.pend.get l = true ∧
      ∀ k : Line, k.rank < l.rank → s.pend.get k = false) ∧
    dispatch l s = { push16 s.pc s with
      status := .running, ie := false, pc := vector s.config l, pend := s.pend.set l false } ∧
    (∀ k : Line, (dispatch l s).pend.get k = if k = l then false else s.pend.get k) ∧
    vector s.config .vblank = 0x0010 ∧ vector s.config .button = 0x0020 ∧
    vector s.config .keyboard = 0x0030 ∧ vector s.config .serial = s.config.vecSerial

/-- 40_execution_cycle.md R122, R126: a dispatching step goes on to the handler's first instruction
(the spec's own decision D12), or ends with `pc` at the vector where the parameter
`DISPATCH_THEN_FETCH` is false. Nothing depends on what stands at the old `pc` (60_exceptions.md R246). -/
def Obligations.DispatchingStepRunsTheHandler : Prop :=
  ∀ (s d : State) (l : Line), s.status ≠ .stopped → s.dueLine = some l →
    d = dispatch l { s with events := [], portCalls := [] } →
    (s.config.dispatchThenFetch = false → step s = .next d) ∧
    (∀ (i : Instr) (len : Nat), s.config.dispatchThenFetch = true →
      decodeAt s.config.opcodeMap s.pmem (vector s.config l) = .ok i len →
      step s = exec i { d with pc := vector s.config l + BitVec.ofNat 16 len })

/-- 40_execution_cycle.md R125 and 60_exceptions.md R231 (what is left is the spec's own decision D10):
one byte is consumed and nothing else changes; a dispatch of the same step stays done. -/
def Obligations.IllegalOpcodeConsumesOneByte : Prop :=
  ∀ (s d : State) (l : Line) (v : Byte), s.config.opcodeMap.inverse v = none →
    (s.status = .running → s.dueLine = none → s.readProgram s.pc = v →
      step s = .fault (.illegalOpcode v { s with pc := s.pc + 1, events := [], portCalls := [] })) ∧
    (s.status ≠ .stopped → s.dueLine = some l → s.config.dispatchThenFetch = true →
      s.readProgram (vector s.config l) = v → d = dispatch l { s with events := [], portCalls := [] } →
      step s = .fault (.illegalOpcode v { d with pc := vector s.config l + 1 }))

/-- 60_exceptions.md R233: every instruction completes, in every state, and a step either completes or
raises `IllegalOpcode` on an unassigned byte; nothing else can stop it. What the fault leaves (`pc`,
registers, program memory) is the spec's own decision D10 (60_exceptions.md R231; assumption logs 4
and 14). -/
def Obligations.NothingFaultsButIllegalOpcode : Prop :=
  (∀ (i : Instr) (s : State), ∃ t : State, exec i s = .next t) ∧
  ∀ s : State, (∃ t : State, step s = .next t) ∨
    ∃ (v : Byte) (left : State), step s = .fault (.illegalOpcode v left) ∧
      s.config.opcodeMap.inverse v = none ∧ s.readProgram (fetchAddr s) = v ∧
      left.pc = fetchAddr s + 1 ∧ left.regs = s.regs ∧ left.pmem = s.pmem ∧
      s.status ≠ .stopped

/-- 40_execution_cycle.md R130, R133: a step enters Stopped only by STOP and Sleeping only by SLEEP. -/
def Obligations.StatusChangesOnlyAsTheTableSays : Prop :=
  ∀ s t : State, step s = .next t →
    (t.status = .stopped → s.status = .stopped ∨
      decodeAt s.config.opcodeMap s.pmem (fetchAddr s) = .ok .stop 1) ∧
    (t.status = .sleeping → (s.status = .sleeping ∧ s.dueLine = none) ∨
      decodeAt s.config.opcodeMap s.pmem (fetchAddr s) = .ok .sleep 1) ∧
    (s.status = .stopped → t.status = .stopped) ∧
    (s.status = .sleeping → s.dueLine = none → t.status = .sleeping)

/-- 10_state.md R35 and 60_exceptions.md R242: a step that is not Stopped clears exactly the line it
dispatches, and sets none. -/
def Obligations.OneLineIsClearedExactlyByItsDispatch : Prop :=
  ∀ (s t : State) (l : Line), step s = .next t →
    (t.pend.get l = true ↔ s.pend.get l = true ∧ (s.status = .stopped ∨ s.dueLine ≠ some l))

/-- 70_reset_and_hazards.md R266, 60_exceptions.md R236: with `IE` false and no EI or RETI reached, no
interrupt is taken in any number of steps, whatever is pending. -/
def Obligations.NoInterruptWithoutEiOrReti : Prop :=
  ∀ (n : Nat) (s t : State), s.ie = false → steps n s = .next t →
    (∀ (k : Nat) (u : State), k < n → steps k s = .next u → ∀ len : Nat,
      decodeAt u.config.opcodeMap u.pmem u.pc ≠ .ok .ei len ∧
      decodeAt u.config.opcodeMap u.pmem u.pc ≠ .ok .reti len) →
    t.ie = false ∧ t.pend = s.pend

/-! ### Runs and host requests -/

/-- 40_execution_cycle.md R131: no request but a reset gets a core out of Stopped or changes its `pc`,
registers, flags or data memory; without a load, program memory stays too; lines stay pending. A
reset makes it Running with no line pending. That a load, which may be among the requests, leaves all
but program memory is the spec's own decision D16 (R138; assumption log 14). -/
def Obligations.StoppedIsLeftOnlyByReset : Prop :=
  ∀ (requests : List HostRequest) (s t : State), s.status = .stopped →
    .reset ∉ requests → t = (handleAll requests s).2 →
    t.status = .stopped ∧ t.pc = s.pc ∧ t.sp = s.sp ∧ t.regs = s.regs ∧ t.dmem = s.dmem ∧
    t.carry = s.carry ∧ t.zero = s.zero ∧ t.ie = s.ie ∧
    (∀ l : Line, s.pend.get l = true → t.pend.get l = true) ∧
    ((∀ bytes : List Byte, .load bytes ∉ requests) → t.pmem = s.pmem) ∧
    (handle .reset t).2.status = .running ∧
    ∀ l : Line, (handle .reset t).2.pend.get l = false

/-- 40_execution_cycle.md R132: a core Sleeping with `IE` false stays so until a reset, whatever lines
the host asserts. That a load, which may be among the requests, leaves all but program memory is the
spec's own decision D16 (R138; assumption log 14). -/
def Obligations.SleepingWithoutIeIsStuck : Prop :=
  ∀ (requests : List HostRequest) (s t : State), s.status = .sleeping → s.ie = false →
    .reset ∉ requests → t = (handleAll requests s).2 →
    t.runEnd = some .stuck ∧ t.pc = s.pc ∧ t.sp = s.sp ∧ t.regs = s.regs ∧
    t.dmem = s.dmem ∧ t.carry = s.carry ∧ t.zero = s.zero

/-- 40_execution_cycle.md R135 (the spec's own definition D18): in a final, stuck or waiting state a step
changes nothing; the other states are the Running ones and the Sleeping ones with a line to dispatch,
and a dispatch changes the state. -/
def Obligations.EndedRunsDoNotMove : Prop :=
  ∀ s : State,
    (s.runEnd ≠ none → step s = .next { s with events := [], portCalls := [] }) ∧
    (s.runEnd = none → ∀ l : Line, s.dueLine = some l →
      step s ≠ .next { s with events := [], portCalls := [] }) ∧
    (s.runEnd = none ↔ s.status = .running ∨ (s.status = .sleeping ∧ s.dueLine ≠ none))

/-- 40_execution_cycle.md R128, R129 (that the steps end at a fault is the spec's own decision D11). -/
def Obligations.StepsEndAtTheFirstFault : Prop :=
  ∀ (n : Nat) (s : State),
    steps 0 s = .next s ∧
    (∀ t : State, steps n s = .next t → steps (n + 1) s = step t) ∧
    (∀ f : Fault, steps n s = .fault f ↔
      ∃ (k : Nat) (u : State), k < n ∧ steps k s = .next u ∧ step u = .fault f)

/-- 40_execution_cycle.md R137, R138, R139 and 60_exceptions.md R232. That the tail and the rest of the
state stay is the spec's own decision D16; that a load sets the length `L` is D7 (assumption logs 14
and 1). -/
def Obligations.LoadCopiesTheProgram : Prop :=
  ∀ (bytes : List Byte) (s : State),
    (bytes.length ≤ 65536 → ∃ m : Memory,
      loadProgram bytes s = .next { s with pmem := m, loadedLen := bytes.length } ∧
      ∀ a : Addr, m.read a.toNat = bytes.getD a.toNat (s.readProgram a)) ∧
    (65536 < bytes.length → loadProgram bytes s = .fault .programTooLarge ∧
      handle (.load bytes) s = (.loadTooLarge, s))

/-- 40_execution_cycle.md R141: each stimulus sets its line and nothing else, in every state; the
payloads do not reach the core. -/
def Obligations.StimulusSetsItsLineOnly : Prop :=
  ∀ (s : State) (button char : Nat),
    (handle .irqVblank s).2 = { s with pend := { s.pend with vblank := true } } ∧
    (handle (.irqButton button) s).2 = { s with pend := { s.pend with button := true } } ∧
    (handle (.irqKeyboard char) s).2 = { s with pend := { s.pend with keyboard := true } } ∧
    (handle .irqSerial s).2 = { s with pend := { s.pend with serial := true } }

/-! ### Invariants -/

/-- The state after reset is well formed (10_state.md R47 and the canonical form of the model's own data);
a reset keeps a state well formed, and keeps what is the host's: the port bindings and the loaded
length (the spec's own decisions D17 and D7), the parameters, and the count of draws (assumption log 2). -/
def Obligations.ResetIsWellFormed : Prop :=
  State.reset.wf = true ∧
  ∀ s : State, (s.wf = true → (resetCore s).wf = true) ∧
    (handle .reset s).2.ports = s.ports ∧ (handle .reset s).2.loadedLen = s.loadedLen ∧
    (handle .reset s).2.config = s.config ∧ (handle .reset s).2.draws = s.draws

/-- Every step keeps a state well formed (both memories in the model's canonical form, the ports' lists
rising, admissible parameters), also one that faults. -/
def Obligations.StepKeepsWellFormed : Prop :=
  ∀ s : State, s.wf = true →
    (∀ t : State, step s = .next t → t.wf = true) ∧
    (∀ (v : Byte) (left : State), step s = .fault (.illegalOpcode v left) → left.wf = true)

/-- Every run of host requests keeps a state well formed, never changes the parameters, and changes
program memory only by a load (20_memory.md R51, R76). That these requests are the host's only writes
is the spec's own decision D29, and that each acts between steps is D15. -/
def Obligations.HostRequestsKeepWellFormed : Prop :=
  ∀ (requests : List HostRequest) (s t : State), s.wf = true → t = (handleAll requests s).2 →
    t.wf = true ∧ t.config = s.config ∧
    ((∀ bytes : List Byte, .load bytes ∉ requests) → t.pmem = s.pmem)

/-! ### Encoding -/

/-- 30_encoding.md R93, under every admissible opcode map, for every instruction with every operand
value: the bytes decode to the instruction and to their own count. That the encoder writes an ignored
nibble as 0 is the spec's own decision D5. -/
def Obligations.DecodeOfEncodeIsTheInstruction : Prop :=
  ∀ (map : OpcodeMap) (i : Instr) (rest : List Byte), map.wf = true →
    decodeBytes map (encode map i ++ rest) = .ok i (encode map i).length

/-- 30_encoding.md R93, R85, the other direction: bytes that decode are the instruction's own encoding up
to the ignored nibbles, which the encoder writes as 0 (the spec's own decision D5). -/
def Obligations.EncodeOfDecodeIsTheBytes : Prop :=
  ∀ (map : OpcodeMap) (op : Byte) (operands : List Byte) (i : Instr) (len : Nat),
    decodeBytes map (op :: operands) = .ok i len →
    encode map i = op :: clearIgnored i.mnemonic.operandClass (operands.take (len - 1))

/-- 30_encoding.md R81: 1 to 4 bytes, known from the opcode byte alone. -/
def Obligations.LengthIsKnownFromTheOpcode : Prop :=
  ∀ (map : OpcodeMap) (op : Byte) (xs ys : List Byte) (i j : Instr) (m n : Nat),
    decodeBytes map (op :: xs) = .ok i m → decodeBytes map (op :: ys) = .ok j n →
    m = n ∧ i.mnemonic = j.mnemonic ∧ 1 ≤ m ∧ m ≤ 4 ∧
    m = 1 + i.mnemonic.operandClass.operandBytes ∧ map.inverse op = some i.mnemonic

/-- 30_encoding.md R86, R89 and 95_test_vectors.md L2.9 for the default map (the spec's own decision D1,
and D2 for the classes): it is admissible, 219 opcode bytes are illegal, and words written out from the
spec, at least one of each family, decode to the instructions they stand for. -/
def Obligations.DefaultMapAndSampleWords : Prop :=
  OpcodeMap.standard.wf = true ∧
  ((List.range 256).filter fun n =>
    OpcodeMap.standard.inverse (BitVec.ofNat 8 n) = none).length = 219 ∧
  decodeTableWord 8 0x03 = some .brk ∧ decodeTableWord 8 0x33 = some .reti ∧
  decodeTableWord 16 0x1234 = some (.sub 3 4) ∧ decodeTableWord 16 0x22BC = some (.xor 11 12) ∧
  decodeTableWord 16 0x150F = some (.dec 15) ∧ decodeTableWord 24 0x240341 = some (.cmpi 3 0x41) ∧
  decodeTableWord 24 0x301234 = some (.jmp 0x1234) ∧
  decodeTableWord 32 0x43028000 = some (.st 2 0x8000) ∧
  decodeTableWord 24 0x470023 = some (.lpmd 0 2 3) ∧
  decodeTableWord 16 0x5001 = some (.push 1) ∧ decodeTableWord 24 0x520110 = some (.inp 1 0x10) ∧
  decodeTableWord 8 0xFF = none

/-! ### The disassembler -/

/-- 30_encoding.md R101, R102, R104, R106: a disassembly starts at 0, each record starts where the one
before ended and below the bound, each holds the raw bytes and the text of the instruction that decodes
there, and the last one reaches the bound; a positive bound gives a record. It fails with `v` exactly
when the walk's records lead to a cursor below the bound that holds the unassigned byte `v`. No state
changes. The extent of the walk is the spec's own decision D7, that a failure gives no record D8, and
the text D6 (assumption logs 1 and 14). -/
def Obligations.DisassemblyIsOneLinearWalk : Prop :=
  ∀ s : State, disasmBound s ≤ 65536 →
    handle .disassemble s = (.disassembly (disassemble s), s) ∧
    (∀ rs : List DisasmRecord, disassemble s = .records rs →
      (∀ r ∈ rs, ∃ (i : Instr) (len : Nat),
        decodeAt s.config.opcodeMap s.pmem r.address = .ok i len ∧
        r.bytes = (s.pmem.window r.address).take len ∧ r.text = render i) ∧
      (∀ r ∈ rs, r.address.toNat < disasmBound s) ∧
      (∀ (k : Nat) (r q : DisasmRecord), rs[k]? = some r → rs[k + 1]? = some q →
        q.address.toNat = r.address.toNat + r.bytes.length) ∧
      (∀ r : DisasmRecord, rs[0]? = some r → r.address = 0x0000) ∧
      (∀ r : DisasmRecord, rs.getLast? = some r →
        disasmBound s ≤ r.address.toNat + r.bytes.length) ∧
      (0 < disasmBound s → rs ≠ [])) ∧
    (∀ v : Byte, disassemble s = .illegalOpcode v ↔
      ∃ (walked : List DisasmRecord) (c : Nat),
        walkReaches s 0 walked c ∧ c < disasmBound s ∧
        s.readProgram (BitVec.ofNat 16 c) = v ∧ s.config.opcodeMap.inverse v = none)

/-- 95_test_vectors.md L1.5 and 30_encoding.md R103: the first record of a disassembly of an encoded
instruction has its bytes, all of them, and its text; with the bound `LoadedLength` (R105, D7) the
disassembly succeeds and has no other record. The text is the spec's own decision D6. -/
def Obligations.DisassemblyReproducesTheInstruction : Prop :=
  ∀ (i : Instr) (s t : State), s.config.wf = true →
    loadProgram (encode s.config.opcodeMap i) s = .next t →
    (∀ rs : List DisasmRecord, disassemble t = .records rs →
      rs.head? = some ⟨0x0000, encode s.config.opcodeMap i, render i⟩) ∧
    (s.config.disasmBound = .loadedLength →
      disassemble t = .records [⟨0x0000, encode s.config.opcodeMap i, render i⟩])

/-- 30_encoding.md R107: zero-filled program memory is 65536 NOP records under `Full`.
The extent of the walk is the spec's own decision D7, and the text D6. -/
def Obligations.ZeroMemoryDisassemblesToNops : Prop :=
  ∀ s : State, s.config.wf = true → s.config.disasmBound = .full →
    (∀ a : Addr, s.readProgram a = 0x00) →
    disassemble s = .records ((List.range 65536).map fun c =>
      ⟨BitVec.ofNat 16 c, [0x00], "NOP"⟩)
end

