-- ==== Sys2Proof/Laws/Alu.lean ====
section
/-! SUPPORT. The result bytes of the arithmetic unit as numbers (42_arithmetic.md R170). -/

namespace Sys2Proof.Machine

theorem add8_result_toNat (a b : Byte) : (add8 a b).result.toNat = (a.toNat + b.toNat) % 256 := by
  simp [add8]

theorem sub8_result (a b : Byte) : (sub8 a b).result = a - b := by
  apply BitVec.eq_of_toInt_eq
  simp only [sub8, BitVec.toInt_ofInt, BitVec.toInt_sub]
  rw [BitVec.toInt_eq_toNat_bmod, BitVec.toInt_eq_toNat_bmod]
  simp

theorem sub8_result_toNat (a b : Byte) :
    (sub8 a b).result.toNat = (a.toNat + 256 - b.toNat) % 256 := by
  have := a.isLt; have := b.isLt
  rw [sub8_result]; bv_omega

/-- `Z` of a subtraction is equality (42_arithmetic.md R162). -/
theorem sub8_zero (a b : Byte) : (sub8 a b).zero = decide (a = b) := by
  have := a.isLt; have := b.isLt
  simp only [sub8, decide_eq_decide, ← BitVec.toNat_inj]
  omega

/-- `Z` of an addition is that the result byte is 0 (10_state.md R30). -/
theorem add8_zero (a b : Byte) : (add8 a b).zero = decide ((add8 a b).result = 0) := by
  simp only [add8, decide_eq_decide, ← BitVec.toNat_inj]
  simp

/-! ### With a carry or borrow that comes in -/

theorem addc8_false (a b : Byte) : addc8 false a b = add8 a b := rfl

theorem subc8_false (a b : Byte) : subc8 false a b = sub8 a b := rfl

/-- The two overflows of ADDC are one: the unbounded sum with the carry (42_arithmetic.md R172). -/
theorem addc8_true (a b : Byte) :
    (addc8 true a b).result = BitVec.ofNat 8 (a.toNat + b.toNat + 1) ∧
    (addc8 true a b).carry = decide (256 ≤ a.toNat + b.toNat + 1) ∧
    (addc8 true a b).zero = decide ((a.toNat + b.toNat + 1) % 256 = 0) := by
  have first : (add8 a b).result.toNat = (a.toNat + b.toNat) % 256 := add8_result_toNat a b
  have unfolded : addc8 true a b =
      { add8 (add8 a b).result 1 with
        carry := (add8 a b).carry || (add8 (add8 a b).result 1).carry } := rfl
  have one : (1 : Byte).toNat = 1 := rfl
  rw [unfolded]
  refine ⟨?_, ?_, ?_⟩
  · apply BitVec.eq_of_toNat_eq
    show (add8 (add8 a b).result 1).result.toNat = _
    rw [add8_result_toNat, first, one, BitVec.toNat_ofNat]
    omega
  · show (decide (256 ≤ a.toNat + b.toNat) ||
      decide (256 ≤ (add8 a b).result.toNat + (1 : Byte).toNat)) = _
    rw [← Bool.decide_or, decide_eq_decide, first, one]
    omega
  · show decide (((add8 a b).result.toNat + (1 : Byte).toNat) % 256 = 0) = _
    rw [decide_eq_decide, first, one]
    omega

/-- The two borrows of SUBC are one: the unbounded difference with the borrow (42_arithmetic.md R173). -/
theorem subc8_true (a b : Byte) :
    (subc8 true a b).result = a - b - 1 ∧
    (subc8 true a b).carry = decide (a.toNat < b.toNat + 1) ∧
    (subc8 true a b).zero = decide (a - b = 1) := by
  have unfolded : subc8 true a b =
      { sub8 (sub8 a b).result 1 with
        carry := (sub8 a b).carry || (sub8 (sub8 a b).result 1).carry } := rfl
  rw [unfolded]
  refine ⟨?_, ?_, ?_⟩
  · show (sub8 (sub8 a b).result 1).result = _
    rw [sub8_result, sub8_result]
  · show (decide (a.toNat < b.toNat) || decide ((sub8 a b).result.toNat < (1 : Byte).toNat)) = _
    have := a.isLt; have := b.isLt
    have one : (1 : Byte).toNat = 1 := rfl
    rw [← Bool.decide_or, decide_eq_decide, sub8_result_toNat, one]
    omega
  · show (sub8 (sub8 a b).result 1).zero = _
    rw [sub8_zero, sub8_result]

/-- A flag-writing result as one record update. -/
theorem writeAlu_eq (d : RegIdx) (out : Alu) (s : State) :
    writeAlu d out s =
      { s with regs := s.regs.set d out.result, carry := out.carry, zero := out.zero } := rfl

end Sys2Proof.Machine
end

