-- ==== Sys2Proof/Laws/Bits.lean ====
section
/-! SUPPORT. The bit utilities split and join without loss (00_scope.md R8, R17). -/

namespace Sys2Proof

@[simp] theorem hi4_nibbles (h l : RegIdx) : hi4 (nibbles h l) = h := by decide +revert

@[simp] theorem lo4_nibbles (h l : RegIdx) : lo4 (nibbles h l) = l := by decide +revert

@[simp] theorem nibbles_hi4_lo4 (b : Byte) : nibbles (hi4 b) (lo4 b) = b := by
  decide +revert

theorem w16_toNat (h l : Byte) : (w16 h l).toNat = h.toNat * 256 + l.toNat := by
  have := l.isLt
  simp only [w16, BitVec.toNat_append]
  rw [← Nat.shiftLeft_add_eq_or_of_lt (by omega), Nat.shiftLeft_eq]

theorem hi8_toNat (w : Addr) : (hi8 w).toNat = w.toNat / 256 := by
  have := w.isLt
  simp [hi8, Nat.shiftRight_eq_div_pow]; omega

theorem lo8_toNat (w : Addr) : (lo8 w).toNat = w.toNat % 256 := by
  simp [lo8]

@[simp] theorem hi8_w16 (h l : Byte) : hi8 (w16 h l) = h := by
  apply BitVec.eq_of_toNat_eq
  have := l.isLt
  rw [hi8_toNat, w16_toNat]; omega

@[simp] theorem lo8_w16 (h l : Byte) : lo8 (w16 h l) = l := by
  apply BitVec.eq_of_toNat_eq
  have := l.isLt
  rw [lo8_toNat, w16_toNat]; omega

@[simp] theorem w16_hi8_lo8 (w : Addr) : w16 (hi8 w) (lo8 w) = w := by
  apply BitVec.eq_of_toNat_eq
  rw [w16_toNat, hi8_toNat, lo8_toNat]; omega

end Sys2Proof
end

