-- ==== Sys2Proof/Laws/Decode.lean ====
section
/-! SUPPORT. The opcode map and its inverse, and what decoding answers (30_encoding.md R88 to R93). -/

namespace Sys2Proof

theorem Mnemonic.mem_all (m : Mnemonic) : m ∈ Mnemonic.all := by cases m <;> decide

theorem OpcodeMap.wf_injective {map : OpcodeMap} (h : map.wf = true) {m n : Mnemonic}
    (same : map.byte m = map.byte n) : m = n := by
  have nodup : (Mnemonic.all.map map.byte).Nodup := by
    simp only [OpcodeMap.wf, OpcodeMap.isInjective, Bool.and_eq_true, decide_eq_true_eq] at h
    exact h.1.1
  exact List.inj_on_of_nodup_map nodup (Mnemonic.mem_all m) (Mnemonic.mem_all n) same

/-- What the inverse answers is a mnemonic with that byte. -/
theorem OpcodeMap.byte_of_inverse {map : OpcodeMap} {op : Byte} {m : Mnemonic}
    (h : map.inverse op = some m) : map.byte m = op := by
  simpa using List.find?_some h

/-- Under an admissible map, the inverse answers the mnemonic of its byte (30_encoding.md R88, R91). -/
theorem OpcodeMap.inverse_byte {map : OpcodeMap} (h : map.wf = true) (m : Mnemonic) :
    map.inverse (map.byte m) = some m := by
  cases found : map.inverse (map.byte m) with
  | none =>
    have := List.find?_eq_none.mp found m (Mnemonic.mem_all m)
    simp at this
  | some n => rw [OpcodeMap.wf_injective h (OpcodeMap.byte_of_inverse found)]

theorem OpcodeMap.wf_nop {map : OpcodeMap} (h : map.wf = true) : map.byte .nop = 0x00 := by
  simp only [OpcodeMap.wf, OpcodeMap.fixesNop, Bool.and_eq_true, beq_iff_eq] at h
  exact h.1.2

/-- Decoding an assigned opcode byte followed by enough bytes (30_encoding.md R91). -/
theorem decodeBytes_assigned {map : OpcodeMap} {op : Byte} {m : Mnemonic} {rest : List Byte}
    (h : map.inverse op = some m) (enough : m.operandClass.operandBytes ≤ rest.length) :
    decodeBytes map (op :: rest) =
      .ok (assemble m (rest.getD 0 0) (rest.getD 1 0) (rest.getD 2 0)) m.length := by
  simp only [decodeBytes, h, if_neg (Nat.not_lt.mpr enough)]

/-- Decoding an unassigned opcode byte (30_encoding.md R89). -/
theorem decodeBytes_unassigned {map : OpcodeMap} {op : Byte} {rest : List Byte}
    (h : map.inverse op = none) : decodeBytes map (op :: rest) = .illegal op := by
  simp only [decodeBytes, h]

/-- Every answer `ok` comes from an assigned opcode byte and enough bytes. -/
theorem decodeBytes_ok {map : OpcodeMap} {op : Byte} {rest : List Byte} {i : Instr} {len : Nat}
    (h : decodeBytes map (op :: rest) = .ok i len) :
    ∃ m : Mnemonic, map.inverse op = some m ∧ m.operandClass.operandBytes ≤ rest.length ∧
      i = assemble m (rest.getD 0 0) (rest.getD 1 0) (rest.getD 2 0) ∧ len = m.length := by
  simp only [decodeBytes] at h
  split at h
  · simp at h
  · rename_i m found
    split at h
    · simp at h
    · rename_i enough
      simp only [Decoded.ok.injEq] at h
      exact ⟨m, found, by omega, h.1.symm, h.2.symm⟩

theorem OperandClass.operandBytes_le (c : OperandClass) : c.operandBytes ≤ 3 := by
  cases c <;> decide

theorem Mnemonic.length_pos (m : Mnemonic) : 1 ≤ m.length := by simp [Mnemonic.length]

theorem Mnemonic.length_le (m : Mnemonic) : m.length ≤ 4 := by
  have := m.operandClass.operandBytes_le
  simp only [Mnemonic.length]; omega

@[simp] theorem assemble_mnemonic (m : Mnemonic) (b1 b2 b3 : Byte) :
    (assemble m b1 b2 b3).mnemonic = m := by cases m <;> rfl

end Sys2Proof
end

