-- ==== Sys2Proof/Laws/Memory.lean ====
section
/-! SUPPORT. What a memory write does to a read, that every memory operation keeps the canonical form,
and that the canonical form is one: equal bytes are equal lists. -/

namespace Sys2Proof.Machine

/-! ### Reads after writes -/

theorem Memory.read_insert (m : Memory) (a b : Nat) (v : Byte) :
    (Memory.insert m a v).read b = if b = a then v else m.read b := by
  induction m with
  | nil => simp [Memory.insert, Memory.read, eq_comm]
  | cons cell rest ih =>
    obtain ⟨key, old⟩ := cell
    simp only [Memory.insert]
    split
    · simp only [Memory.read]
      by_cases h : b = a
      · simp [h]
      · simp [h, Ne.symm h]
    · split
      · rename_i h; subst h
        simp only [Memory.read]
        by_cases hb : b = key
        · simp [hb]
        · simp [hb, Ne.symm hb]
      · rename_i h
        simp only [Memory.read, ih]
        by_cases hk : key = b
        · subst hk; simp [h]
        · simp [hk]

theorem Memory.read_erase (m : Memory) (a b : Nat) :
    (Memory.erase m a).read b = if b = a then 0x00 else m.read b := by
  induction m with
  | nil => simp [Memory.erase, Memory.read]
  | cons cell rest ih =>
    obtain ⟨key, old⟩ := cell
    simp only [Memory.erase, List.filter_cons, bne_iff_ne, ne_eq] at ih ⊢
    by_cases h : key = a
    · subst h
      simp only [not_true_eq_false, if_false, ih, Memory.read]
      by_cases hb : b = key
      · simp [hb]
      · simp [hb, Ne.symm hb]
    · simp only [h, not_false_eq_true, if_true, Memory.read, ih]
      by_cases hk : key = b
      · subst hk; simp [h]
      · simp [hk]

/-- A write sets the byte at its address and no other (20_memory.md R53). -/
theorem Memory.read_write (m : Memory) (a b : Nat) (v : Byte) :
    (m.write a v).read b = if b = a then v else m.read b := by
  unfold Memory.write
  split
  · rename_i h; subst h; exact Memory.read_erase m a b
  · exact Memory.read_insert m a b v

theorem Memory.read_write_same (m : Memory) (a : Nat) (v : Byte) :
    (m.write a v).read a = v := by simp [Memory.read_write]

theorem Memory.read_write_other (m : Memory) (a b : Nat) (v : Byte) (h : b ≠ a) :
    (m.write a v).read b = m.read b := by simp [Memory.read_write, h]

theorem readData_writeData (s : State) (a b : Addr) (v : Byte) :
    (s.writeData a v).readData b = if b = a then v else s.readData b := by
  simp only [State.readData, State.writeData, Memory.read_write]
  by_cases h : b = a
  · simp [h]
  · simp [h, BitVec.toNat_inj]

/-- Bytes put from address `a` on stand there in order, for no more bytes than a memory has. -/
theorem Memory.read_writeBytes (bytes : List Byte) (m : Memory) (a b : Addr)
    (fits : bytes.length ≤ 65536) :
    (m.writeBytes a bytes).read b.toNat = bytes.getD (b - a).toNat (m.read b.toNat) := by
  induction bytes generalizing m a with
  | nil => simp [Memory.writeBytes]
  | cons v rest ih =>
    simp only [List.length_cons] at fits
    simp only [Memory.writeBytes, ih _ _ (by omega), Memory.read_write]
    by_cases h : b = a
    · subst h
      have step : (b - (b + 1)).toNat = 65535 := by
        have : b - (b + 1) = 65535 := by bv_omega
        rw [this]; rfl
      simp only [step, if_pos]
      rw [List.getD_eq_default _ _ (by omega)]
      simp
    · have ne : ¬ b.toNat = a.toNat := fun e => h (BitVec.eq_of_toNat_eq e)
      have step : (b - a).toNat = (b - (a + 1)).toNat + 1 := by
        have := b.isLt; have := a.isLt; bv_omega
      simp only [if_neg ne, step]
      simp

/-! ### The canonical form -/

theorem Memory.wfFrom_mono {m : Memory} {low high : Nat} (h : low ≤ high)
    (hm : Memory.wfFrom high m = true) : Memory.wfFrom low m = true := by
  cases m with
  | nil => rfl
  | cons cell rest =>
    simp only [Memory.wfFrom, Bool.and_eq_true, decide_eq_true_eq, bne_iff_ne] at hm ⊢
    exact ⟨⟨⟨by omega, hm.1.1.2⟩, hm.1.2⟩, hm.2⟩

theorem Memory.wfFrom_insert {m : Memory} {low a : Nat} {v : Byte} (low_le : low ≤ a)
    (in_range : a < 65536) (listed : v ≠ 0x00) (hm : Memory.wfFrom low m = true) :
    Memory.wfFrom low (Memory.insert m a v) = true := by
  induction m generalizing low with
  | nil => simpa [Memory.insert, Memory.wfFrom, low_le, in_range] using listed
  | cons cell rest ih =>
    obtain ⟨key, old⟩ := cell
    simp only [Memory.wfFrom, Bool.and_eq_true, decide_eq_true_eq, bne_iff_ne] at hm
    obtain ⟨⟨⟨h1, h2⟩, h3⟩, h4⟩ := hm
    simp only [Memory.insert]
    split
    · simp only [Memory.wfFrom, Bool.and_eq_true, decide_eq_true_eq, bne_iff_ne]
      exact ⟨⟨⟨low_le, in_range⟩, listed⟩, ⟨⟨by omega, h2⟩, h3⟩, h4⟩
    · split
      · rename_i e; subst e
        simp only [Memory.wfFrom, Bool.and_eq_true, decide_eq_true_eq, bne_iff_ne]
        exact ⟨⟨⟨low_le, in_range⟩, listed⟩, h4⟩
      · simp only [Memory.wfFrom, Bool.and_eq_true, decide_eq_true_eq, bne_iff_ne]
        exact ⟨⟨⟨h1, h2⟩, h3⟩, ih (by omega) h4⟩

theorem Memory.wfFrom_erase {m : Memory} {low : Nat} (a : Nat)
    (hm : Memory.wfFrom low m = true) : Memory.wfFrom low (Memory.erase m a) = true := by
  induction m generalizing low with
  | nil => rfl
  | cons cell rest ih =>
    obtain ⟨key, old⟩ := cell
    simp only [Memory.wfFrom, Bool.and_eq_true, decide_eq_true_eq, bne_iff_ne] at hm
    have kept := ih hm.2
    simp only [Memory.erase, List.filter_cons] at kept ⊢
    split
    · simp only [Memory.wfFrom, Bool.and_eq_true, decide_eq_true_eq, bne_iff_ne]
      exact ⟨hm.1, kept⟩
    · exact Memory.wfFrom_mono (by omega) kept

/-- Every write within the address space keeps the canonical form. -/
theorem Memory.wf_write {m : Memory} (a : Addr) (v : Byte) (hm : m.wf = true) :
    (m.write a.toNat v).wf = true := by
  unfold Memory.write
  split
  · exact Memory.wfFrom_erase _ hm
  · rename_i h; exact Memory.wfFrom_insert (Nat.zero_le _) a.isLt h hm

theorem Memory.wf_writeBytes (bytes : List Byte) {m : Memory} (a : Addr) (hm : m.wf = true) :
    (m.writeBytes a bytes).wf = true := by
  induction bytes generalizing m a with
  | nil => exact hm
  | cons v rest ih => exact ih _ (Memory.wf_write a v hm)

theorem Memory.wf_nil : Memory.wf [] = true := rfl

theorem Memory.read_below {m : Memory} {low a : Nat} (hm : Memory.wfFrom low m = true)
    (h : a < low) : m.read a = 0x00 := by
  induction m generalizing low with
  | nil => rfl
  | cons cell rest ih =>
    obtain ⟨key, old⟩ := cell
    simp only [Memory.wfFrom, Bool.and_eq_true, decide_eq_true_eq, bne_iff_ne] at hm
    have : key ≠ a := by omega
    simp only [Memory.read, if_neg this]
    exact ih hm.2 (by omega)

theorem Memory.eq_of_read_from {m n : Memory} {low : Nat} (hm : Memory.wfFrom low m = true)
    (hn : Memory.wfFrom low n = true) (same : ∀ a : Nat, m.read a = n.read a) : m = n := by
  induction m generalizing n low with
  | nil =>
    cases n with
    | nil => rfl
    | cons cell rest =>
      obtain ⟨key, v⟩ := cell
      simp only [Memory.wfFrom, Bool.and_eq_true, decide_eq_true_eq, bne_iff_ne] at hn
      have := same key
      simp only [Memory.read, if_pos] at this
      exact absurd this.symm hn.1.2
  | cons cell rest ih =>
    obtain ⟨key, v⟩ := cell
    have hm' := hm
    simp only [Memory.wfFrom, Bool.and_eq_true, decide_eq_true_eq, bne_iff_ne] at hm
    cases n with
    | nil =>
      have := same key
      simp only [Memory.read, if_pos] at this
      exact absurd this hm.1.2
    | cons cell' rest' =>
      obtain ⟨key', v'⟩ := cell'
      have hn' := hn
      simp only [Memory.wfFrom, Bool.and_eq_true, decide_eq_true_eq, bne_iff_ne] at hn
      have keys : key = key' := by
        rcases Nat.lt_trichotomy key key' with h | h | h
        · have h0 : Memory.read ((key', v') :: rest') key = 0x00 := by
            simp only [Memory.read, if_neg (show key' ≠ key by omega)]
            exact Memory.read_below hn.2 (by omega)
          have := same key
          rw [h0] at this
          simp only [Memory.read, if_pos] at this
          exact absurd this hm.1.2
        · exact h
        · have h0 : Memory.read ((key, v) :: rest) key' = 0x00 := by
            simp only [Memory.read, if_neg (show key ≠ key' by omega)]
            exact Memory.read_below hm.2 (by omega)
          have := same key'
          rw [h0] at this
          simp only [Memory.read, if_pos] at this
          exact absurd this.symm hn.1.2
      subst keys
      have values : v = v' := by simpa [Memory.read] using same key
      subst values
      have tails : rest = rest' := ih hm.2 hn.2 fun a => by
        by_cases h : key = a
        · subst h
          rw [Memory.read_below hm.2 (by omega), Memory.read_below hn.2 (by omega)]
        · simpa [Memory.read, h] using same a
      rw [tails]

/-- Two canonical memories with the same bytes are the same list. -/
theorem Memory.eq_of_read {m n : Memory} (hm : m.wf = true) (hn : n.wf = true)
    (same : ∀ a : Nat, m.read a = n.read a) : m = n := Memory.eq_of_read_from hm hn same

end Sys2Proof.Machine
end

