-- ==== Sys2Proof/Laws/State.lean ====
section
/-! SUPPORT. One lemma per field per update of State, true by rfl, and what each accessor reads after
each update that touches what it reads. -/

namespace Sys2Proof.Machine

variable (s : State)

/-! ### setReg -/

@[simp] theorem setReg_regs (i : RegIdx) (v : Byte) : (s.setReg i v).regs = s.regs.set i v := rfl
@[simp] theorem setReg_pc (i : RegIdx) (v : Byte) : (s.setReg i v).pc = s.pc := rfl
@[simp] theorem setReg_sp (i : RegIdx) (v : Byte) : (s.setReg i v).sp = s.sp := rfl
@[simp] theorem setReg_carry (i : RegIdx) (v : Byte) : (s.setReg i v).carry = s.carry := rfl
@[simp] theorem setReg_zero (i : RegIdx) (v : Byte) : (s.setReg i v).zero = s.zero := rfl
@[simp] theorem setReg_ie (i : RegIdx) (v : Byte) : (s.setReg i v).ie = s.ie := rfl
@[simp] theorem setReg_pend (i : RegIdx) (v : Byte) : (s.setReg i v).pend = s.pend := rfl
@[simp] theorem setReg_status (i : RegIdx) (v : Byte) : (s.setReg i v).status = s.status := rfl
@[simp] theorem setReg_pmem (i : RegIdx) (v : Byte) : (s.setReg i v).pmem = s.pmem := rfl
@[simp] theorem setReg_dmem (i : RegIdx) (v : Byte) : (s.setReg i v).dmem = s.dmem := rfl
@[simp] theorem setReg_ports (i : RegIdx) (v : Byte) : (s.setReg i v).ports = s.ports := rfl
@[simp] theorem setReg_loadedLen (i : RegIdx) (v : Byte) : (s.setReg i v).loadedLen = s.loadedLen := rfl
@[simp] theorem setReg_config (i : RegIdx) (v : Byte) : (s.setReg i v).config = s.config := rfl
@[simp] theorem setReg_draws (i : RegIdx) (v : Byte) : (s.setReg i v).draws = s.draws := rfl
@[simp] theorem setReg_events (i : RegIdx) (v : Byte) : (s.setReg i v).events = s.events := rfl
@[simp] theorem setReg_portCalls (i : RegIdx) (v : Byte) : (s.setReg i v).portCalls = s.portCalls := rfl

/-! ### setCarryZero -/

@[simp] theorem setCarryZero_regs (c z : Bool) : (s.setCarryZero c z).regs = s.regs := rfl
@[simp] theorem setCarryZero_pc (c z : Bool) : (s.setCarryZero c z).pc = s.pc := rfl
@[simp] theorem setCarryZero_sp (c z : Bool) : (s.setCarryZero c z).sp = s.sp := rfl
@[simp] theorem setCarryZero_carry (c z : Bool) : (s.setCarryZero c z).carry = c := rfl
@[simp] theorem setCarryZero_zero (c z : Bool) : (s.setCarryZero c z).zero = z := rfl
@[simp] theorem setCarryZero_ie (c z : Bool) : (s.setCarryZero c z).ie = s.ie := rfl
@[simp] theorem setCarryZero_pend (c z : Bool) : (s.setCarryZero c z).pend = s.pend := rfl
@[simp] theorem setCarryZero_status (c z : Bool) : (s.setCarryZero c z).status = s.status := rfl
@[simp] theorem setCarryZero_pmem (c z : Bool) : (s.setCarryZero c z).pmem = s.pmem := rfl
@[simp] theorem setCarryZero_dmem (c z : Bool) : (s.setCarryZero c z).dmem = s.dmem := rfl
@[simp] theorem setCarryZero_ports (c z : Bool) : (s.setCarryZero c z).ports = s.ports := rfl
@[simp] theorem setCarryZero_loadedLen (c z : Bool) : (s.setCarryZero c z).loadedLen = s.loadedLen := rfl
@[simp] theorem setCarryZero_config (c z : Bool) : (s.setCarryZero c z).config = s.config := rfl
@[simp] theorem setCarryZero_draws (c z : Bool) : (s.setCarryZero c z).draws = s.draws := rfl
@[simp] theorem setCarryZero_events (c z : Bool) : (s.setCarryZero c z).events = s.events := rfl
@[simp] theorem setCarryZero_portCalls (c z : Bool) : (s.setCarryZero c z).portCalls = s.portCalls := rfl

/-! ### setIe -/

@[simp] theorem setIe_regs (b : Bool) : (s.setIe b).regs = s.regs := rfl
@[simp] theorem setIe_pc (b : Bool) : (s.setIe b).pc = s.pc := rfl
@[simp] theorem setIe_sp (b : Bool) : (s.setIe b).sp = s.sp := rfl
@[simp] theorem setIe_carry (b : Bool) : (s.setIe b).carry = s.carry := rfl
@[simp] theorem setIe_zero (b : Bool) : (s.setIe b).zero = s.zero := rfl
@[simp] theorem setIe_ie (b : Bool) : (s.setIe b).ie = b := rfl
@[simp] theorem setIe_pend (b : Bool) : (s.setIe b).pend = s.pend := rfl
@[simp] theorem setIe_status (b : Bool) : (s.setIe b).status = s.status := rfl
@[simp] theorem setIe_pmem (b : Bool) : (s.setIe b).pmem = s.pmem := rfl
@[simp] theorem setIe_dmem (b : Bool) : (s.setIe b).dmem = s.dmem := rfl
@[simp] theorem setIe_ports (b : Bool) : (s.setIe b).ports = s.ports := rfl
@[simp] theorem setIe_loadedLen (b : Bool) : (s.setIe b).loadedLen = s.loadedLen := rfl
@[simp] theorem setIe_config (b : Bool) : (s.setIe b).config = s.config := rfl
@[simp] theorem setIe_draws (b : Bool) : (s.setIe b).draws = s.draws := rfl
@[simp] theorem setIe_events (b : Bool) : (s.setIe b).events = s.events := rfl
@[simp] theorem setIe_portCalls (b : Bool) : (s.setIe b).portCalls = s.portCalls := rfl

/-! ### setPc -/

@[simp] theorem setPc_regs (a : Addr) : (s.setPc a).regs = s.regs := rfl
@[simp] theorem setPc_pc (a : Addr) : (s.setPc a).pc = a := rfl
@[simp] theorem setPc_sp (a : Addr) : (s.setPc a).sp = s.sp := rfl
@[simp] theorem setPc_carry (a : Addr) : (s.setPc a).carry = s.carry := rfl
@[simp] theorem setPc_zero (a : Addr) : (s.setPc a).zero = s.zero := rfl
@[simp] theorem setPc_ie (a : Addr) : (s.setPc a).ie = s.ie := rfl
@[simp] theorem setPc_pend (a : Addr) : (s.setPc a).pend = s.pend := rfl
@[simp] theorem setPc_status (a : Addr) : (s.setPc a).status = s.status := rfl
@[simp] theorem setPc_pmem (a : Addr) : (s.setPc a).pmem = s.pmem := rfl
@[simp] theorem setPc_dmem (a : Addr) : (s.setPc a).dmem = s.dmem := rfl
@[simp] theorem setPc_ports (a : Addr) : (s.setPc a).ports = s.ports := rfl
@[simp] theorem setPc_loadedLen (a : Addr) : (s.setPc a).loadedLen = s.loadedLen := rfl
@[simp] theorem setPc_config (a : Addr) : (s.setPc a).config = s.config := rfl
@[simp] theorem setPc_draws (a : Addr) : (s.setPc a).draws = s.draws := rfl
@[simp] theorem setPc_events (a : Addr) : (s.setPc a).events = s.events := rfl
@[simp] theorem setPc_portCalls (a : Addr) : (s.setPc a).portCalls = s.portCalls := rfl

/-! ### setSp -/

@[simp] theorem setSp_regs (a : Addr) : (s.setSp a).regs = s.regs := rfl
@[simp] theorem setSp_pc (a : Addr) : (s.setSp a).pc = s.pc := rfl
@[simp] theorem setSp_sp (a : Addr) : (s.setSp a).sp = a := rfl
@[simp] theorem setSp_carry (a : Addr) : (s.setSp a).carry = s.carry := rfl
@[simp] theorem setSp_zero (a : Addr) : (s.setSp a).zero = s.zero := rfl
@[simp] theorem setSp_ie (a : Addr) : (s.setSp a).ie = s.ie := rfl
@[simp] theorem setSp_pend (a : Addr) : (s.setSp a).pend = s.pend := rfl
@[simp] theorem setSp_status (a : Addr) : (s.setSp a).status = s.status := rfl
@[simp] theorem setSp_pmem (a : Addr) : (s.setSp a).pmem = s.pmem := rfl
@[simp] theorem setSp_dmem (a : Addr) : (s.setSp a).dmem = s.dmem := rfl
@[simp] theorem setSp_ports (a : Addr) : (s.setSp a).ports = s.ports := rfl
@[simp] theorem setSp_loadedLen (a : Addr) : (s.setSp a).loadedLen = s.loadedLen := rfl
@[simp] theorem setSp_config (a : Addr) : (s.setSp a).config = s.config := rfl
@[simp] theorem setSp_draws (a : Addr) : (s.setSp a).draws = s.draws := rfl
@[simp] theorem setSp_events (a : Addr) : (s.setSp a).events = s.events := rfl
@[simp] theorem setSp_portCalls (a : Addr) : (s.setSp a).portCalls = s.portCalls := rfl

/-! ### setStatus -/

@[simp] theorem setStatus_regs (x : Status) : (s.setStatus x).regs = s.regs := rfl
@[simp] theorem setStatus_pc (x : Status) : (s.setStatus x).pc = s.pc := rfl
@[simp] theorem setStatus_sp (x : Status) : (s.setStatus x).sp = s.sp := rfl
@[simp] theorem setStatus_carry (x : Status) : (s.setStatus x).carry = s.carry := rfl
@[simp] theorem setStatus_zero (x : Status) : (s.setStatus x).zero = s.zero := rfl
@[simp] theorem setStatus_ie (x : Status) : (s.setStatus x).ie = s.ie := rfl
@[simp] theorem setStatus_pend (x : Status) : (s.setStatus x).pend = s.pend := rfl
@[simp] theorem setStatus_status (x : Status) : (s.setStatus x).status = x := rfl
@[simp] theorem setStatus_pmem (x : Status) : (s.setStatus x).pmem = s.pmem := rfl
@[simp] theorem setStatus_dmem (x : Status) : (s.setStatus x).dmem = s.dmem := rfl
@[simp] theorem setStatus_ports (x : Status) : (s.setStatus x).ports = s.ports := rfl
@[simp] theorem setStatus_loadedLen (x : Status) : (s.setStatus x).loadedLen = s.loadedLen := rfl
@[simp] theorem setStatus_config (x : Status) : (s.setStatus x).config = s.config := rfl
@[simp] theorem setStatus_draws (x : Status) : (s.setStatus x).draws = s.draws := rfl
@[simp] theorem setStatus_events (x : Status) : (s.setStatus x).events = s.events := rfl
@[simp] theorem setStatus_portCalls (x : Status) : (s.setStatus x).portCalls = s.portCalls := rfl

/-! ### setPend -/

@[simp] theorem setPend_regs (p : Pending) : (s.setPend p).regs = s.regs := rfl
@[simp] theorem setPend_pc (p : Pending) : (s.setPend p).pc = s.pc := rfl
@[simp] theorem setPend_sp (p : Pending) : (s.setPend p).sp = s.sp := rfl
@[simp] theorem setPend_carry (p : Pending) : (s.setPend p).carry = s.carry := rfl
@[simp] theorem setPend_zero (p : Pending) : (s.setPend p).zero = s.zero := rfl
@[simp] theorem setPend_ie (p : Pending) : (s.setPend p).ie = s.ie := rfl
@[simp] theorem setPend_pend (p : Pending) : (s.setPend p).pend = p := rfl
@[simp] theorem setPend_status (p : Pending) : (s.setPend p).status = s.status := rfl
@[simp] theorem setPend_pmem (p : Pending) : (s.setPend p).pmem = s.pmem := rfl
@[simp] theorem setPend_dmem (p : Pending) : (s.setPend p).dmem = s.dmem := rfl
@[simp] theorem setPend_ports (p : Pending) : (s.setPend p).ports = s.ports := rfl
@[simp] theorem setPend_loadedLen (p : Pending) : (s.setPend p).loadedLen = s.loadedLen := rfl
@[simp] theorem setPend_config (p : Pending) : (s.setPend p).config = s.config := rfl
@[simp] theorem setPend_draws (p : Pending) : (s.setPend p).draws = s.draws := rfl
@[simp] theorem setPend_events (p : Pending) : (s.setPend p).events = s.events := rfl
@[simp] theorem setPend_portCalls (p : Pending) : (s.setPend p).portCalls = s.portCalls := rfl

/-! ### emit -/

@[simp] theorem emit_regs (e : Event) : (s.emit e).regs = s.regs := rfl
@[simp] theorem emit_pc (e : Event) : (s.emit e).pc = s.pc := rfl
@[simp] theorem emit_sp (e : Event) : (s.emit e).sp = s.sp := rfl
@[simp] theorem emit_carry (e : Event) : (s.emit e).carry = s.carry := rfl
@[simp] theorem emit_zero (e : Event) : (s.emit e).zero = s.zero := rfl
@[simp] theorem emit_ie (e : Event) : (s.emit e).ie = s.ie := rfl
@[simp] theorem emit_pend (e : Event) : (s.emit e).pend = s.pend := rfl
@[simp] theorem emit_status (e : Event) : (s.emit e).status = s.status := rfl
@[simp] theorem emit_pmem (e : Event) : (s.emit e).pmem = s.pmem := rfl
@[simp] theorem emit_dmem (e : Event) : (s.emit e).dmem = s.dmem := rfl
@[simp] theorem emit_ports (e : Event) : (s.emit e).ports = s.ports := rfl
@[simp] theorem emit_loadedLen (e : Event) : (s.emit e).loadedLen = s.loadedLen := rfl
@[simp] theorem emit_config (e : Event) : (s.emit e).config = s.config := rfl
@[simp] theorem emit_draws (e : Event) : (s.emit e).draws = s.draws := rfl
@[simp] theorem emit_events (e : Event) : (s.emit e).events = s.events ++ [e] := rfl
@[simp] theorem emit_portCalls (e : Event) : (s.emit e).portCalls = s.portCalls := rfl

/-! ### callPort -/

@[simp] theorem callPort_regs (e : Event) : (s.callPort e).regs = s.regs := rfl
@[simp] theorem callPort_pc (e : Event) : (s.callPort e).pc = s.pc := rfl
@[simp] theorem callPort_sp (e : Event) : (s.callPort e).sp = s.sp := rfl
@[simp] theorem callPort_carry (e : Event) : (s.callPort e).carry = s.carry := rfl
@[simp] theorem callPort_zero (e : Event) : (s.callPort e).zero = s.zero := rfl
@[simp] theorem callPort_ie (e : Event) : (s.callPort e).ie = s.ie := rfl
@[simp] theorem callPort_pend (e : Event) : (s.callPort e).pend = s.pend := rfl
@[simp] theorem callPort_status (e : Event) : (s.callPort e).status = s.status := rfl
@[simp] theorem callPort_pmem (e : Event) : (s.callPort e).pmem = s.pmem := rfl
@[simp] theorem callPort_dmem (e : Event) : (s.callPort e).dmem = s.dmem := rfl
@[simp] theorem callPort_ports (e : Event) : (s.callPort e).ports = s.ports := rfl
@[simp] theorem callPort_loadedLen (e : Event) : (s.callPort e).loadedLen = s.loadedLen := rfl
@[simp] theorem callPort_config (e : Event) : (s.callPort e).config = s.config := rfl
@[simp] theorem callPort_draws (e : Event) : (s.callPort e).draws = s.draws := rfl
@[simp] theorem callPort_events (e : Event) : (s.callPort e).events = s.events := rfl
@[simp] theorem callPort_portCalls (e : Event) : (s.callPort e).portCalls = s.portCalls ++ [e] := rfl

/-! ### clearEvents -/

@[simp] theorem clearEvents_regs : (s.clearEvents).regs = s.regs := rfl
@[simp] theorem clearEvents_pc : (s.clearEvents).pc = s.pc := rfl
@[simp] theorem clearEvents_sp : (s.clearEvents).sp = s.sp := rfl
@[simp] theorem clearEvents_carry : (s.clearEvents).carry = s.carry := rfl
@[simp] theorem clearEvents_zero : (s.clearEvents).zero = s.zero := rfl
@[simp] theorem clearEvents_ie : (s.clearEvents).ie = s.ie := rfl
@[simp] theorem clearEvents_pend : (s.clearEvents).pend = s.pend := rfl
@[simp] theorem clearEvents_status : (s.clearEvents).status = s.status := rfl
@[simp] theorem clearEvents_pmem : (s.clearEvents).pmem = s.pmem := rfl
@[simp] theorem clearEvents_dmem : (s.clearEvents).dmem = s.dmem := rfl
@[simp] theorem clearEvents_ports : (s.clearEvents).ports = s.ports := rfl
@[simp] theorem clearEvents_loadedLen : (s.clearEvents).loadedLen = s.loadedLen := rfl
@[simp] theorem clearEvents_config : (s.clearEvents).config = s.config := rfl
@[simp] theorem clearEvents_draws : (s.clearEvents).draws = s.draws := rfl
@[simp] theorem clearEvents_events : (s.clearEvents).events = [] := rfl
@[simp] theorem clearEvents_portCalls : (s.clearEvents).portCalls = [] := rfl

/-! ### writeData -/

@[simp] theorem writeData_regs (a : Addr) (v : Byte) : (s.writeData a v).regs = s.regs := rfl
@[simp] theorem writeData_pc (a : Addr) (v : Byte) : (s.writeData a v).pc = s.pc := rfl
@[simp] theorem writeData_sp (a : Addr) (v : Byte) : (s.writeData a v).sp = s.sp := rfl
@[simp] theorem writeData_carry (a : Addr) (v : Byte) : (s.writeData a v).carry = s.carry := rfl
@[simp] theorem writeData_zero (a : Addr) (v : Byte) : (s.writeData a v).zero = s.zero := rfl
@[simp] theorem writeData_ie (a : Addr) (v : Byte) : (s.writeData a v).ie = s.ie := rfl
@[simp] theorem writeData_pend (a : Addr) (v : Byte) : (s.writeData a v).pend = s.pend := rfl
@[simp] theorem writeData_status (a : Addr) (v : Byte) : (s.writeData a v).status = s.status := rfl
@[simp] theorem writeData_pmem (a : Addr) (v : Byte) : (s.writeData a v).pmem = s.pmem := rfl
@[simp] theorem writeData_dmem (a : Addr) (v : Byte) : (s.writeData a v).dmem = s.dmem.write a.toNat v := rfl
@[simp] theorem writeData_ports (a : Addr) (v : Byte) : (s.writeData a v).ports = s.ports := rfl
@[simp] theorem writeData_loadedLen (a : Addr) (v : Byte) : (s.writeData a v).loadedLen = s.loadedLen := rfl
@[simp] theorem writeData_config (a : Addr) (v : Byte) : (s.writeData a v).config = s.config := rfl
@[simp] theorem writeData_draws (a : Addr) (v : Byte) : (s.writeData a v).draws = s.draws := rfl
@[simp] theorem writeData_events (a : Addr) (v : Byte) : (s.writeData a v).events = s.events := rfl
@[simp] theorem writeData_portCalls (a : Addr) (v : Byte) : (s.writeData a v).portCalls = s.portCalls := rfl

/-! ### Accessors after updates -/

@[simp] theorem setReg_readData (i : RegIdx) (v : Byte) (q : Addr) :
    (s.setReg i v).readData q = s.readData q := rfl
@[simp] theorem setReg_readProgram (i : RegIdx) (v : Byte) (q : Addr) :
    (s.setReg i v).readProgram q = s.readProgram q := rfl
@[simp] theorem setCarryZero_reg (c z : Bool) (j : RegIdx) :
    (s.setCarryZero c z).reg j = s.reg j := rfl
@[simp] theorem setCarryZero_readData (c z : Bool) (q : Addr) :
    (s.setCarryZero c z).readData q = s.readData q := rfl
@[simp] theorem setCarryZero_readProgram (c z : Bool) (q : Addr) :
    (s.setCarryZero c z).readProgram q = s.readProgram q := rfl
@[simp] theorem setIe_reg (b : Bool) (j : RegIdx) :
    (s.setIe b).reg j = s.reg j := rfl
@[simp] theorem setIe_readData (b : Bool) (q : Addr) :
    (s.setIe b).readData q = s.readData q := rfl
@[simp] theorem setIe_readProgram (b : Bool) (q : Addr) :
    (s.setIe b).readProgram q = s.readProgram q := rfl
@[simp] theorem setPc_reg (a : Addr) (j : RegIdx) :
    (s.setPc a).reg j = s.reg j := rfl
@[simp] theorem setPc_readData (a : Addr) (q : Addr) :
    (s.setPc a).readData q = s.readData q := rfl
@[simp] theorem setPc_readProgram (a : Addr) (q : Addr) :
    (s.setPc a).readProgram q = s.readProgram q := rfl
@[simp] theorem setSp_reg (a : Addr) (j : RegIdx) :
    (s.setSp a).reg j = s.reg j := rfl
@[simp] theorem setSp_readData (a : Addr) (q : Addr) :
    (s.setSp a).readData q = s.readData q := rfl
@[simp] theorem setSp_readProgram (a : Addr) (q : Addr) :
    (s.setSp a).readProgram q = s.readProgram q := rfl
@[simp] theorem setStatus_reg (x : Status) (j : RegIdx) :
    (s.setStatus x).reg j = s.reg j := rfl
@[simp] theorem setStatus_readData (x : Status) (q : Addr) :
    (s.setStatus x).readData q = s.readData q := rfl
@[simp] theorem setStatus_readProgram (x : Status) (q : Addr) :
    (s.setStatus x).readProgram q = s.readProgram q := rfl
@[simp] theorem setPend_reg (p : Pending) (j : RegIdx) :
    (s.setPend p).reg j = s.reg j := rfl
@[simp] theorem setPend_readData (p : Pending) (q : Addr) :
    (s.setPend p).readData q = s.readData q := rfl
@[simp] theorem setPend_readProgram (p : Pending) (q : Addr) :
    (s.setPend p).readProgram q = s.readProgram q := rfl
@[simp] theorem emit_reg (e : Event) (j : RegIdx) :
    (s.emit e).reg j = s.reg j := rfl
@[simp] theorem emit_readData (e : Event) (q : Addr) :
    (s.emit e).readData q = s.readData q := rfl
@[simp] theorem emit_readProgram (e : Event) (q : Addr) :
    (s.emit e).readProgram q = s.readProgram q := rfl
@[simp] theorem callPort_reg (e : Event) (j : RegIdx) :
    (s.callPort e).reg j = s.reg j := rfl
@[simp] theorem callPort_readData (e : Event) (q : Addr) :
    (s.callPort e).readData q = s.readData q := rfl
@[simp] theorem callPort_readProgram (e : Event) (q : Addr) :
    (s.callPort e).readProgram q = s.readProgram q := rfl
@[simp] theorem clearEvents_reg (j : RegIdx) :
    (s.clearEvents).reg j = s.reg j := rfl
@[simp] theorem clearEvents_readData (q : Addr) :
    (s.clearEvents).readData q = s.readData q := rfl
@[simp] theorem clearEvents_readProgram (q : Addr) :
    (s.clearEvents).readProgram q = s.readProgram q := rfl
@[simp] theorem writeData_reg (a : Addr) (v : Byte) (j : RegIdx) :
    (s.writeData a v).reg j = s.reg j := rfl
@[simp] theorem writeData_readProgram (a : Addr) (v : Byte) (q : Addr) :
    (s.writeData a v).readProgram q = s.readProgram q := rfl

theorem setReg_reg (i j : RegIdx) (v : Byte) :
    (s.setReg i v).reg j = if j = i then v else s.reg j := by
  by_cases h : j = i
  · subst h; simp [State.reg]
  · simp only [State.reg, setReg_regs, if_neg h, Fin.getElem_fin]
    exact Vector.getElem_set_ne _ _ (fun e => h (Fin.ext e.symm))

@[simp] theorem setReg_reg_same (i : RegIdx) (v : Byte) : (s.setReg i v).reg i = v := by
  simp [setReg_reg]

theorem setReg_reg_other (i j : RegIdx) (v : Byte) (h : j ≠ i) :
    (s.setReg i v).reg j = s.reg j := by simp [setReg_reg, h]

end Sys2Proof.Machine
end

