-- ==== Sys2Proof/Laws/Stack.lean ====
section
/-! SUPPORT. What the stack primitives do (20_memory.md R58 to R61). -/

namespace Sys2Proof.Machine

/-! ### Bytes -/

theorem push8_eq (v : Byte) (s : State) :
    push8 v s = { s with dmem := s.dmem.write s.sp.toNat v, sp := s.sp - 1 } := rfl

theorem pop8_eq (s : State) : pop8 s = (s.readData (s.sp + 1), { s with sp := s.sp + 1 }) := rfl

/-! ### Words -/

/-- The byte that a 16-bit push writes first, at `sp`. -/
def firstPushed (order : PushOrder) (v : Addr) : Byte :=
  match order with
  | .highFirst => hi8 v
  | .lowFirst => lo8 v

/-- The byte that a 16-bit push writes second, at `sp - 1`. -/
def secondPushed (order : PushOrder) (v : Addr) : Byte :=
  match order with
  | .highFirst => lo8 v
  | .lowFirst => hi8 v

/-- A 16-bit push writes two data bytes and moves `sp` by 2, and changes nothing else. -/
theorem push16_eq (v : Addr) (s : State) :
    push16 v s = { s with
      dmem := (s.dmem.write s.sp.toNat (firstPushed s.config.push16Order v)).write
        (s.sp - 1).toNat (secondPushed s.config.push16Order v)
      sp := s.sp - 2 } := by
  have two : s.sp - 1 - 1 = s.sp - 2 := by bv_omega
  simp only [push16, push8_eq, two]
  cases s.config.push16Order <;> rfl

theorem push16_readData (v : Addr) (s : State) (a : Addr) :
    (push16 v s).readData a =
      if a = s.sp - 1 then secondPushed s.config.push16Order v
      else if a = s.sp then firstPushed s.config.push16Order v
      else s.readData a := by
  rw [push16_eq]
  simp only [State.readData, Memory.read_write, BitVec.toNat_inj]

theorem push16_first (v : Addr) (s : State) :
    (push16 v s).readData s.sp = firstPushed s.config.push16Order v := by
  have ne : s.sp ≠ s.sp - 1 := by bv_omega
  rw [push16_readData, if_neg ne, if_pos rfl]

theorem push16_second (v : Addr) (s : State) :
    (push16 v s).readData (s.sp - 1) = secondPushed s.config.push16Order v := by
  rw [push16_readData, if_pos rfl]

theorem push16_other (v : Addr) (s : State) {a : Addr} (h1 : a ≠ s.sp) (h2 : a ≠ s.sp - 1) :
    (push16 v s).readData a = s.readData a := by
  rw [push16_readData, if_neg h2, if_neg h1]

/-- A 16-bit pop reads the two bytes above `sp` and moves `sp` by 2, and changes nothing else. -/
theorem pop16_eq (s : State) :
    pop16 s =
      (match s.config.push16Order with
        | .highFirst => w16 (s.readData (s.sp + 2)) (s.readData (s.sp + 1))
        | .lowFirst => w16 (s.readData (s.sp + 1)) (s.readData (s.sp + 2)),
       { s with sp := s.sp + 2 }) := by
  have two : s.sp + 1 + 1 = s.sp + 2 := by bv_omega
  unfold pop16
  simp only [pop8_eq, two]
  cases s.config.push16Order <;> rfl

/-- A word pops back as it was pushed, in either order and wherever `sp` wraps (20_memory.md R61). -/
theorem pop16_value_of_pushed {v : Addr} {s t : State} (order : t.config = s.config)
    (first : t.readData s.sp = firstPushed s.config.push16Order v)
    (second : t.readData (s.sp - 1) = secondPushed s.config.push16Order v)
    (sp : t.sp = s.sp - 2) : (pop16 t).1 = v := by
  have h1 : t.sp + 1 = s.sp - 1 := by rw [sp]; bv_omega
  have h2 : t.sp + 2 = s.sp := by rw [sp]; bv_omega
  rw [pop16_eq, h1, h2, order, first, second]
  cases s.config.push16Order <;> simp [firstPushed, secondPushed]

theorem returnFromStack_eq (s : State) :
    returnFromStack s = { s with pc := (pop16 s).1, sp := s.sp + 2 } := by
  simp only [returnFromStack, State.setPc, pop16_eq]

end Sys2Proof.Machine
end

