-- ==== Sys2Proof/Laws/Exec.lean ====
section
/-! SUPPORT. What every instruction does, said once: it completes, and it keeps what no instruction
writes. -/

namespace Sys2Proof.Machine

/-- The state an instruction leaves. -/
def execState (i : Instr) (s : State) : State :=
  match exec i s with
  | .next t => t
  | .fault _ => s
  | .refused _ => s

theorem exec_eq (i : Instr) (s : State) : exec i s = .next (execState i s) := by
  cases i <;> rfl

theorem execState_of_next {i : Instr} {s t : State} (h : exec i s = .next t) :
    t = execState i s := by
  rw [exec_eq] at h
  exact (Host.Outcome.next.inj h).symm

/-! ### Each instruction in terms of the shared operations

Proofs rewrite with these and the field lemmas of Laws/State.lean; none unfolds a meaning. -/

@[simp] theorem execState_nop (s : State) : execState .nop s = s := rfl

@[simp] theorem execState_stop (s : State) : execState .stop s = s.setStatus .stopped := rfl

@[simp] theorem execState_sleep (s : State) : execState .sleep s = s.setStatus .sleeping := rfl

@[simp] theorem execState_brk (s : State) : execState .brk s = s.emit (.brk (s.pc - 1)) := rfl

@[simp] theorem execState_ei (s : State) : execState .ei s = s.setIe true := rfl

@[simp] theorem execState_di (s : State) : execState .di s = s.setIe false := rfl

@[simp] theorem execState_add (d src : RegIdx) (s : State) :
    execState (.add d src) s = writeAlu d (add8 (s.reg d) (s.reg src)) s := rfl

@[simp] theorem execState_addc (d src : RegIdx) (s : State) :
    execState (.addc d src) s = writeAlu d (addc8 s.carry (s.reg d) (s.reg src)) s := rfl

@[simp] theorem execState_sub (d src : RegIdx) (s : State) :
    execState (.sub d src) s = writeAlu d (sub8 (s.reg d) (s.reg src)) s := rfl

@[simp] theorem execState_subc (d src : RegIdx) (s : State) :
    execState (.subc d src) s = writeAlu d (subc8 s.carry (s.reg d) (s.reg src)) s := rfl

@[simp] theorem execState_inc (r : RegIdx) (s : State) :
    execState (.inc r) s = writeAlu r (add8 (s.reg r) 1) s := rfl

@[simp] theorem execState_dec (r : RegIdx) (s : State) :
    execState (.dec r) s = writeAlu r (sub8 (s.reg r) 1) s := rfl

@[simp] theorem execState_and (d src : RegIdx) (s : State) :
    execState (.and d src) s = writeAlu d (logic8 (s.reg d &&& s.reg src)) s := rfl

@[simp] theorem execState_or (d src : RegIdx) (s : State) :
    execState (.or d src) s = writeAlu d (logic8 (s.reg d ||| s.reg src)) s := rfl

@[simp] theorem execState_xor (d src : RegIdx) (s : State) :
    execState (.xor d src) s = writeAlu d (logic8 (s.reg d ^^^ s.reg src)) s := rfl

@[simp] theorem execState_cmp (d src : RegIdx) (s : State) :
    execState (.cmp d src) s = writeAluFlags (sub8 (s.reg d) (s.reg src)) s := rfl

@[simp] theorem execState_cmpi (r : RegIdx) (imm : Byte) (s : State) :
    execState (.cmpi r imm) s = writeAluFlags (sub8 (s.reg r) imm) s := rfl

@[simp] theorem execState_jmp (addr : Addr) (s : State) :
    execState (.jmp addr) s = s.setPc addr := rfl

@[simp] theorem execState_call (addr : Addr) (s : State) :
    execState (.call addr) s = (push16 s.pc s).setPc addr := rfl

@[simp] theorem execState_ret (s : State) :
    execState .ret s = (s.setPc (pop16 s).1).setSp (s.sp + 2) := returnFromStack_eq s

@[simp] theorem execState_reti (s : State) :
    execState .reti s = ((s.setPc (pop16 s).1).setSp (s.sp + 2)).setIe true := by
  rw [pop16_eq]
  exact (returnFromStack_eq (s.setIe true)).trans (by rw [pop16_eq]; rfl)

@[simp] theorem execState_brc (addr : Addr) (s : State) :
    execState (.brc addr) s = if s.carry then s.setPc addr else s := rfl

@[simp] theorem execState_brnc (addr : Addr) (s : State) :
    execState (.brnc addr) s = if s.carry then s else s.setPc addr := rfl

@[simp] theorem execState_brz (addr : Addr) (s : State) :
    execState (.brz addr) s = if s.zero then s.setPc addr else s := rfl

@[simp] theorem execState_brnz (addr : Addr) (s : State) :
    execState (.brnz addr) s = if s.zero then s else s.setPc addr := rfl

@[simp] theorem execState_mov (d src : RegIdx) (s : State) :
    execState (.mov d src) s = s.setReg d (s.reg src) := rfl

@[simp] theorem execState_ldi (r : RegIdx) (imm : Byte) (s : State) :
    execState (.ldi r imm) s = s.setReg r imm := rfl

@[simp] theorem execState_ld (r : RegIdx) (addr : Addr) (s : State) :
    execState (.ld r addr) s = s.setReg r (s.readData addr) := rfl

@[simp] theorem execState_st (r : RegIdx) (addr : Addr) (s : State) :
    execState (.st r addr) s = s.writeData addr (s.reg r) := rfl

@[simp] theorem execState_lpm (r : RegIdx) (addr : Addr) (s : State) :
    execState (.lpm r addr) s = s.setReg r (s.readProgram addr) := rfl

@[simp] theorem execState_ldd (r ph pl : RegIdx) (s : State) :
    execState (.ldd r ph pl) s = s.setReg r (s.readData (ptrAddr ph pl s)) := rfl

@[simp] theorem execState_std (r ph pl : RegIdx) (s : State) :
    execState (.std r ph pl) s = s.writeData (ptrAddr ph pl s) (s.reg r) := rfl

@[simp] theorem execState_lpmd (r ph pl : RegIdx) (s : State) :
    execState (.lpmd r ph pl) s = s.setReg r (s.readProgram (ptrAddr ph pl s)) := rfl

@[simp] theorem execState_push (r : RegIdx) (s : State) :
    execState (.push r) s = (s.writeData s.sp (s.reg r)).setSp (s.sp - 1) := rfl

@[simp] theorem execState_pop (r : RegIdx) (s : State) :
    execState (.pop r) s = (s.setSp (s.sp + 1)).setReg r (s.readData (s.sp + 1)) := rfl

@[simp] theorem execState_inp (r : RegIdx) (port : Byte) (s : State) :
    execState (.inp r port) s =
      ((portRead port s).2.setReg r (portRead port s).1).emit (.portRd port (portRead port s).1) :=
  rfl

@[simp] theorem execState_out (r : RegIdx) (port : Byte) (s : State) :
    execState (.out r port) s = portWrite port (s.reg r) s := rfl

/-! ### What the shared operations keep -/

@[simp] theorem push16_regs (v : Addr) (s : State) : (push16 v s).regs = s.regs := by
  rw [push16_eq]

@[simp] theorem push16_pc (v : Addr) (s : State) : (push16 v s).pc = s.pc := by
  rw [push16_eq]

@[simp] theorem push16_carry (v : Addr) (s : State) : (push16 v s).carry = s.carry := by
  rw [push16_eq]

@[simp] theorem push16_zero (v : Addr) (s : State) : (push16 v s).zero = s.zero := by
  rw [push16_eq]

@[simp] theorem push16_ie (v : Addr) (s : State) : (push16 v s).ie = s.ie := by
  rw [push16_eq]

@[simp] theorem push16_pend (v : Addr) (s : State) : (push16 v s).pend = s.pend := by
  rw [push16_eq]

@[simp] theorem push16_status (v : Addr) (s : State) : (push16 v s).status = s.status := by
  rw [push16_eq]

@[simp] theorem push16_pmem (v : Addr) (s : State) : (push16 v s).pmem = s.pmem := by
  rw [push16_eq]

@[simp] theorem push16_ports (v : Addr) (s : State) : (push16 v s).ports = s.ports := by
  rw [push16_eq]

@[simp] theorem push16_loadedLen (v : Addr) (s : State) : (push16 v s).loadedLen = s.loadedLen := by
  rw [push16_eq]

@[simp] theorem push16_config (v : Addr) (s : State) : (push16 v s).config = s.config := by
  rw [push16_eq]

@[simp] theorem push16_draws (v : Addr) (s : State) : (push16 v s).draws = s.draws := by
  rw [push16_eq]

@[simp] theorem push16_events (v : Addr) (s : State) : (push16 v s).events = s.events := by
  rw [push16_eq]

@[simp] theorem push16_portCalls (v : Addr) (s : State) :
    (push16 v s).portCalls = s.portCalls := by
  rw [push16_eq]

@[simp] theorem push16_sp (v : Addr) (s : State) : (push16 v s).sp = s.sp - 2 := by
  rw [push16_eq]

theorem push16_dmem_wf {v : Addr} {s : State} (h : s.dmem.wf = true) :
    (push16 v s).dmem.wf = true := by
  rw [push16_eq]
  exact Memory.wf_write _ _ (Memory.wf_write _ _ h)

theorem portRead_eq (p : Byte) (s : State) :
    portRead p s = (if p ∈ s.ports.readBound then Config.portDraw s.draws else 0x00,
      { s with
        draws := if p ∈ s.ports.readBound then s.draws + 1 else s.draws
        portCalls := if p ∈ s.ports.readBound then
          s.portCalls ++ [.portRd p (Config.portDraw s.draws)] else s.portCalls }) := by
  unfold portRead
  split <;> rfl

@[simp] theorem portRead_regs (p : Byte) (s : State) : (portRead p s).2.regs = s.regs := by
  rw [portRead_eq]

@[simp] theorem portRead_pc (p : Byte) (s : State) : (portRead p s).2.pc = s.pc := by
  rw [portRead_eq]

@[simp] theorem portRead_sp (p : Byte) (s : State) : (portRead p s).2.sp = s.sp := by
  rw [portRead_eq]

@[simp] theorem portRead_carry (p : Byte) (s : State) : (portRead p s).2.carry = s.carry := by
  rw [portRead_eq]

@[simp] theorem portRead_zero (p : Byte) (s : State) : (portRead p s).2.zero = s.zero := by
  rw [portRead_eq]

@[simp] theorem portRead_ie (p : Byte) (s : State) : (portRead p s).2.ie = s.ie := by
  rw [portRead_eq]

@[simp] theorem portRead_pend (p : Byte) (s : State) : (portRead p s).2.pend = s.pend := by
  rw [portRead_eq]

@[simp] theorem portRead_status (p : Byte) (s : State) : (portRead p s).2.status = s.status := by
  rw [portRead_eq]

@[simp] theorem portRead_pmem (p : Byte) (s : State) : (portRead p s).2.pmem = s.pmem := by
  rw [portRead_eq]

@[simp] theorem portRead_dmem (p : Byte) (s : State) : (portRead p s).2.dmem = s.dmem := by
  rw [portRead_eq]

@[simp] theorem portRead_ports (p : Byte) (s : State) : (portRead p s).2.ports = s.ports := by
  rw [portRead_eq]

@[simp] theorem portRead_loadedLen (p : Byte) (s : State) : (portRead p s).2.loadedLen = s.loadedLen := by
  rw [portRead_eq]

@[simp] theorem portRead_config (p : Byte) (s : State) : (portRead p s).2.config = s.config := by
  rw [portRead_eq]

@[simp] theorem portRead_events (p : Byte) (s : State) : (portRead p s).2.events = s.events := by
  rw [portRead_eq]

/-- A port write changes the events, and the callbacks invoked if the port is bound. -/
theorem portWrite_eq (p v : Byte) (s : State) :
    portWrite p v s = { s with
      events := s.events ++ [.portWr p v]
      portCalls := if p ∈ s.ports.writeBound then s.portCalls ++ [.portWr p v]
        else s.portCalls } := by
  unfold portWrite
  split <;> rfl

@[simp] theorem portWrite_regs (p v : Byte) (s : State) : (portWrite p v s).regs = s.regs := by
  rw [portWrite_eq]

@[simp] theorem portWrite_pc (p v : Byte) (s : State) : (portWrite p v s).pc = s.pc := by
  rw [portWrite_eq]

@[simp] theorem portWrite_sp (p v : Byte) (s : State) : (portWrite p v s).sp = s.sp := by
  rw [portWrite_eq]

@[simp] theorem portWrite_carry (p v : Byte) (s : State) : (portWrite p v s).carry = s.carry := by
  rw [portWrite_eq]

@[simp] theorem portWrite_zero (p v : Byte) (s : State) : (portWrite p v s).zero = s.zero := by
  rw [portWrite_eq]

@[simp] theorem portWrite_ie (p v : Byte) (s : State) : (portWrite p v s).ie = s.ie := by
  rw [portWrite_eq]

@[simp] theorem portWrite_pend (p v : Byte) (s : State) : (portWrite p v s).pend = s.pend := by
  rw [portWrite_eq]

@[simp] theorem portWrite_status (p v : Byte) (s : State) : (portWrite p v s).status = s.status := by
  rw [portWrite_eq]

@[simp] theorem portWrite_pmem (p v : Byte) (s : State) : (portWrite p v s).pmem = s.pmem := by
  rw [portWrite_eq]

@[simp] theorem portWrite_dmem (p v : Byte) (s : State) : (portWrite p v s).dmem = s.dmem := by
  rw [portWrite_eq]

@[simp] theorem portWrite_ports (p v : Byte) (s : State) : (portWrite p v s).ports = s.ports := by
  rw [portWrite_eq]

@[simp] theorem portWrite_loadedLen (p v : Byte) (s : State) : (portWrite p v s).loadedLen = s.loadedLen := by
  rw [portWrite_eq]

@[simp] theorem portWrite_config (p v : Byte) (s : State) : (portWrite p v s).config = s.config := by
  rw [portWrite_eq]

@[simp] theorem portWrite_draws (p v : Byte) (s : State) : (portWrite p v s).draws = s.draws := by
  rw [portWrite_eq]

@[simp] theorem portWrite_events (p v : Byte) (s : State) :
    (portWrite p v s).events = s.events ++ [.portWr p v] := by
  rw [portWrite_eq]

/-! ### What every instruction keeps -/

/-- No instruction writes program memory, the pending lines, the port table, `L` or the parameters. -/
theorem execState_keeps (i : Instr) (s : State) :
    (execState i s).pmem = s.pmem ∧ (execState i s).pend = s.pend ∧
    (execState i s).ports = s.ports ∧ (execState i s).loadedLen = s.loadedLen ∧
    (execState i s).config = s.config := by
  cases i <;> simp [writeAlu, writeAluFlags]
  all_goals split <;> simp

/-- Every instruction keeps data memory in its canonical form. -/
theorem execState_dmem_wf (i : Instr) {s : State} (h : s.dmem.wf = true) :
    (execState i s).dmem.wf = true := by
  cases i <;> simp [writeAlu, writeAluFlags, h, Memory.wf_write, push16_dmem_wf]
  all_goals split <;> simp [h]

end Sys2Proof.Machine
end

