-- ==== Sys2Proof/Laws/Cycle.lean ====
section
/-! SUPPORT. The fetch is the decoder's, and the cases of a step (40_execution_cycle.md R120 to R126). -/

namespace Sys2Proof.Machine

/-! ### Fetching -/

/-- Fetching `n` bytes reads them at consecutive addresses and moves `pc` past them. -/
theorem fetchBytes_eq (n : Nat) (s : State) :
    fetchBytes n s = ((List.range n).map fun k => s.readProgram (s.pc + BitVec.ofNat 16 k),
      s.setPc (s.pc + BitVec.ofNat 16 n)) := by
  induction n generalizing s with
  | zero => simp [fetchBytes, State.setPc]
  | succ n ih =>
    have shift : ∀ k : Nat, s.pc + 1 + BitVec.ofNat 16 k = s.pc + BitVec.ofNat 16 (k + 1) := by
      intro k; rw [BitVec.add_assoc, BitVec.ofNat_add]; congr 1; exact BitVec.add_comm _ _
    simp only [fetchBytes, fetch8, ih, setPc_pc, setPc_readProgram, shift, List.range_succ_eq_map,
      List.map_cons, List.map_map, Function.comp_def]
    simp [State.setPc]

/-- Bytes that an instruction's class does not have do not matter (30_encoding.md R83). -/
theorem assemble_congr (m : Mnemonic) (b1 b2 b3 c1 c2 c3 : Byte)
    (h1 : 1 ≤ m.operandClass.operandBytes → b1 = c1)
    (h2 : 2 ≤ m.operandClass.operandBytes → b2 = c2)
    (h3 : 3 ≤ m.operandClass.operandBytes → b3 = c3) :
    assemble m b1 b2 b3 = assemble m c1 c2 c3 := by
  cases m <;> simp only [Mnemonic.operandClass, OperandClass.operandBytes] at h1 h2 h3 <;>
    simp_all [assemble]

/-- Fetch and execute, in one line: the opcode byte at `pc` decides, the operand bytes are the ones
after it, and `pc` moves past the instruction. -/
theorem fetchExecute_eq (s : State) :
    fetchExecute s =
      match s.config.opcodeMap.inverse (s.readProgram s.pc) with
      | none => .fault (.illegalOpcode (s.readProgram s.pc) (s.setPc (s.pc + 1)))
      | some m =>
        exec (assemble m (s.readProgram (s.pc + 1)) (s.readProgram (s.pc + 2))
          (s.readProgram (s.pc + 3))) (s.setPc (s.pc + BitVec.ofNat 16 m.length)) := by
  simp only [fetchExecute, fetch8]
  cases s.config.opcodeMap.inverse (s.readProgram s.pc) with
  | none => rfl
  | some m =>
    have past : s.pc + 1 + BitVec.ofNat 16 m.operandClass.operandBytes =
        s.pc + BitVec.ofNat 16 m.length := by
      rw [Mnemonic.length, BitVec.ofNat_add, BitVec.add_assoc]; rfl
    have atByte : ∀ k : Nat, k < m.operandClass.operandBytes →
        ((List.range m.operandClass.operandBytes).map fun j =>
          s.readProgram (s.pc + 1 + BitVec.ofNat 16 j)).getD k 0 =
        s.readProgram (s.pc + (1 + BitVec.ofNat 16 k)) := by
      intro k hk
      rw [List.getD_eq_getElem _ _ (by simpa using hk)]
      simp [BitVec.add_assoc]
    have moved : ∀ a b : Addr, (s.setPc a).setPc b = s.setPc b := fun _ _ => rfl
    simp only [fetchBytes_eq, setPc_pc, setPc_readProgram, past, moved]
    congr 1
    refine assemble_congr m _ _ _ _ _ _ (fun h => ?_) (fun h => ?_) (fun h => ?_)
    · exact atByte 0 h
    · exact atByte 1 h
    · exact atByte 2 h

/-- Decoding from memory never runs out of bytes: the opcode byte decides (30_encoding.md R91). -/
theorem decodeAt_eq (map : OpcodeMap) (m : Memory) (a : Addr) :
    decodeAt map m a =
      match map.inverse (m.read a.toNat) with
      | none => .illegal (m.read a.toNat)
      | some n =>
        .ok (assemble n (m.read (a + 1).toNat) (m.read (a + 2).toNat) (m.read (a + 3).toNat))
          n.length := by
  unfold decodeAt Memory.window
  split
  · rename_i h; exact decodeBytes_unassigned h
  · rename_i n h
    rw [decodeBytes_assigned h (by simpa using n.operandClass.operandBytes_le)]
    rfl

/-- What is fetched is what `decode` reads (40_execution_cycle.md R124). -/
theorem fetchExecute_of_decode {s : State} {i : Instr} {len : Nat}
    (h : decodeAt s.config.opcodeMap s.pmem s.pc = .ok i len) :
    fetchExecute s = exec i (s.setPc (s.pc + BitVec.ofNat 16 len)) := by
  rw [decodeAt_eq] at h
  rw [fetchExecute_eq]
  simp only [State.readProgram] at *
  split at h
  · simp at h
  · rename_i n found
    simp only [Decoded.ok.injEq] at h
    simp only [h.1, h.2]

/-- An unassigned byte faults, with one byte consumed (40_execution_cycle.md R125). -/
theorem fetchExecute_of_illegal {s : State}
    (h : s.config.opcodeMap.inverse (s.readProgram s.pc) = none) :
    fetchExecute s = .fault (.illegalOpcode (s.readProgram s.pc) (s.setPc (s.pc + 1))) := by
  rw [fetchExecute_eq, h]

/-- The two outcomes of fetching and executing. -/
theorem fetchExecute_cases (s : State) :
    (s.config.opcodeMap.inverse (s.readProgram s.pc) = none ∧
      fetchExecute s = .fault (.illegalOpcode (s.readProgram s.pc) (s.setPc (s.pc + 1)))) ∨
    ∃ (i : Instr) (len : Nat), decodeAt s.config.opcodeMap s.pmem s.pc = .ok i len ∧
      fetchExecute s = .next (execState i (s.setPc (s.pc + BitVec.ofNat 16 len))) := by
  cases found : s.config.opcodeMap.inverse (s.readProgram s.pc) with
  | none => exact .inl ⟨rfl, fetchExecute_of_illegal found⟩
  | some m =>
    have decoded := decodeAt_eq s.config.opcodeMap s.pmem s.pc
    simp only [State.readProgram] at found
    rw [found] at decoded
    exact .inr ⟨_, _, decoded, by rw [fetchExecute_of_decode decoded, exec_eq]⟩

/-! ### Interrupts -/

/-- Taking an interrupt, in one line (60_exceptions.md R238). -/
theorem dispatch_eq (l : Line) (s : State) :
    dispatch l s = { s with
      dmem := (push16 s.pc s).dmem
      sp := s.sp - 2
      status := .running
      ie := false
      pc := vector s.config l
      pend := s.pend.set l false } := by
  simp only [dispatch, push16_eq]
  rfl

@[simp] theorem Pending.get_set (p : Pending) (l k : Line) (b : Bool) :
    (p.set l b).get k = if k = l then b else p.get k := by
  cases l <;> cases k <;> rfl

theorem dueLine_clearEvents (s : State) : s.clearEvents.dueLine = s.dueLine := rfl

/-! ### The step -/

/-- The five ways a step goes. -/
theorem step_cases (s : State) :
    (s.status = .stopped ∧ step s = .next s.clearEvents) ∨
    (∃ l : Line, s.status ≠ .stopped ∧ s.dueLine = some l ∧ s.config.dispatchThenFetch = false ∧
      step s = .next (dispatch l s.clearEvents)) ∨
    (∃ l : Line, s.status ≠ .stopped ∧ s.dueLine = some l ∧ s.config.dispatchThenFetch = true ∧
      step s = fetchExecute (dispatch l s.clearEvents)) ∨
    (s.status = .sleeping ∧ s.dueLine = none ∧ step s = .next s.clearEvents) ∨
    (s.status = .running ∧ s.dueLine = none ∧ step s = fetchExecute s.clearEvents) := by
  have unfolded : step s = cycle s := rfl
  rw [unfolded]
  by_cases stopped : s.status = .stopped
  · exact .inl ⟨stopped, by simp [cycle, stopped]⟩
  · have awake : cycle s = cycleAwake s.clearEvents := by simp [cycle, stopped]
    rw [awake]
    cases due : s.dueLine with
    | some l =>
      cases both : s.config.dispatchThenFetch with
      | false =>
        exact .inr (.inl ⟨l, stopped, rfl, rfl, by
          simp [cycleAwake, dueLine_clearEvents, due, both]⟩)
      | true =>
        exact .inr (.inr (.inl ⟨l, stopped, rfl, rfl, by
          simp [cycleAwake, dueLine_clearEvents, due, both]⟩))
    | none =>
      cases status : s.status with
      | stopped => exact absurd status stopped
      | sleeping =>
        exact .inr (.inr (.inr (.inl ⟨rfl, rfl, by
          simp [cycleAwake, dueLine_clearEvents, due, status]⟩)))
      | running =>
        exact .inr (.inr (.inr (.inr ⟨rfl, rfl, by
          simp [cycleAwake, dueLine_clearEvents, due, status]⟩)))

theorem fetchAddr_due {s : State} {l : Line} (h : s.dueLine = some l) :
    fetchAddr s = vector s.config l := by
  simp [fetchAddr, h]

theorem fetchAddr_none {s : State} (h : s.dueLine = none) : fetchAddr s = s.pc := by
  simp [fetchAddr, h]

/-- The state a step that fetches has when it fetches: the step's own, or the one a dispatch leaves. -/
def fetchState (s : State) : State :=
  match s.dueLine with
  | none => s.clearEvents
  | some l => dispatch l s.clearEvents

/-- What a step that fetches fetches from: the step's program memory, at `fetchAddr`. -/
theorem fetchState_keeps (s : State) :
    (fetchState s).config = s.config ∧ (fetchState s).pmem = s.pmem ∧
    (fetchState s).pc = fetchAddr s ∧ (fetchState s).regs = s.regs ∧
    (fetchState s).ports = s.ports ∧ (fetchState s).loadedLen = s.loadedLen := by
  cases due : s.dueLine with
  | none =>
    have here : fetchState s = s.clearEvents := by simp [fetchState, due]
    rw [here, fetchAddr_none due]; exact ⟨rfl, rfl, rfl, rfl, rfl, rfl⟩
  | some l =>
    have here : fetchState s = dispatch l s.clearEvents := by simp [fetchState, due]
    rw [here, fetchAddr_due due, dispatch_eq]; exact ⟨rfl, rfl, rfl, rfl, rfl, rfl⟩

theorem fetchState_dmem_wf {s : State} (h : s.dmem.wf = true) :
    (fetchState s).dmem.wf = true := by
  unfold fetchState
  split
  · exact h
  · rw [dispatch_eq]; exact push16_dmem_wf h

/-- Every step is idle, only dispatches, or fetches. -/
theorem step_kinds (s : State) :
    ((s.status = .stopped ∨ (s.status = .sleeping ∧ s.dueLine = none)) ∧
      step s = .next s.clearEvents) ∨
    (∃ l : Line, s.status ≠ .stopped ∧ s.dueLine = some l ∧
      s.config.dispatchThenFetch = false ∧ step s = .next (dispatch l s.clearEvents)) ∨
    (s.status ≠ .stopped ∧ (fetchState s).status = .running ∧
      (s.status = .running ∨ s.dueLine ≠ none) ∧ step s = fetchExecute (fetchState s)) := by
  rcases step_cases s with ⟨h1, h2⟩ | ⟨l, h0, h1, hf, h3⟩ | ⟨l, h0, h1, hf, h3⟩ | ⟨h1, h0, h2⟩ |
    ⟨h0, h1, h2⟩
  · exact .inl ⟨.inl h1, h2⟩
  · exact .inr (.inl ⟨l, h0, h1, hf, h3⟩)
  · have here : fetchState s = dispatch l s.clearEvents := by simp [fetchState, h1]
    exact .inr (.inr ⟨h0, by rw [here, dispatch_eq], .inr (by simp [h1]), by rw [here, h3]⟩)
  · exact .inl ⟨.inr ⟨h1, h0⟩, h2⟩
  · have here : fetchState s = s.clearEvents := by simp [fetchState, h1]
    exact .inr (.inr ⟨by simp [h0], by rw [here]; exact h0, .inl h0, by rw [here, h2]⟩)

/-- The three outcomes of a step, with what a completed fetch leaves. -/
theorem step_outcomes (s : State) :
    (step s = .next s.clearEvents ∧
      (s.status = .stopped ∨ (s.status = .sleeping ∧ s.dueLine = none))) ∨
    (∃ l : Line, step s = .next (dispatch l s.clearEvents) ∧ s.status ≠ .stopped ∧
      s.dueLine = some l ∧ s.config.dispatchThenFetch = false) ∨
    (s.status ≠ .stopped ∧ s.config.opcodeMap.inverse (s.readProgram (fetchAddr s)) = none ∧
      step s = .fault (.illegalOpcode (s.readProgram (fetchAddr s))
        ((fetchState s).setPc (fetchAddr s + 1)))) ∨
    ∃ (i : Instr) (len : Nat), s.status ≠ .stopped ∧ (s.status = .running ∨ s.dueLine ≠ none) ∧
      decodeAt s.config.opcodeMap s.pmem (fetchAddr s) = .ok i len ∧
      step s = .next (execState i ((fetchState s).setPc (fetchAddr s + BitVec.ofNat 16 len))) := by
  obtain ⟨config, pmem, pc, -⟩ := fetchState_keeps s
  rcases step_kinds s with ⟨idle, h⟩ | ⟨l, awake, due, both, h⟩ | ⟨awake, -, goes, h⟩
  · exact .inl ⟨h, idle⟩
  · exact .inr (.inl ⟨l, h, awake, due, both⟩)
  · have read : (fetchState s).readProgram (fetchState s).pc = s.readProgram (fetchAddr s) := by
      simp only [State.readProgram, pmem, pc]
    rcases fetchExecute_cases (fetchState s) with ⟨illegal, outcome⟩ | ⟨i, len, decoded, outcome⟩
    · rw [read, config] at illegal
      rw [read, pc] at outcome
      exact .inr (.inr (.inl ⟨awake, illegal, h.trans outcome⟩))
    · rw [config, pmem, pc] at decoded
      rw [pc] at outcome
      exact .inr (.inr (.inr ⟨i, len, awake, goes, decoded, h.trans outcome⟩))

/-- The length that decoding answers is the mnemonic's (30_encoding.md R81). -/
theorem decodeAt_length {map : OpcodeMap} {m : Memory} {a : Addr} {i : Instr} {len : Nat}
    (h : decodeAt map m a = .ok i len) : len = i.mnemonic.length := by
  rw [decodeAt_eq] at h
  split at h
  · simp at h
  · simp only [Decoded.ok.injEq] at h
    rw [← h.1, ← h.2, assemble_mnemonic]

end Sys2Proof.Machine
end

