-- ==== Sys2Proof/Laws/Disasm.lean ====
section
/-! SUPPORT. The walk's fuel is enough, and one step of the walk (30_encoding.md R101). -/

namespace Sys2Proof.Machine

/-- An instruction decoded from memory has 1 to 4 bytes (30_encoding.md R81). -/
theorem decodeAt_len {map : OpcodeMap} {m : Memory} {a : Addr} {i : Instr} {len : Nat}
    (h : decodeAt map m a = .ok i len) : 1 ≤ len ∧ len ≤ 4 := by
  rw [decodeAt_eq] at h
  split at h
  · simp at h
  · rename_i n _
    simp only [Decoded.ok.injEq] at h
    exact ⟨h.2 ▸ n.length_pos, h.2 ▸ n.length_le⟩

theorem decodeAt_ne_truncated (map : OpcodeMap) (m : Memory) (a : Addr) :
    decodeAt map m a ≠ .truncated := by
  rw [decodeAt_eq]
  split <;> simp

/-- Decoding from memory answers `illegal` exactly on an unassigned opcode byte. -/
theorem decodeAt_illegal {map : OpcodeMap} {m : Memory} {a : Addr} {v : Byte}
    (h : decodeAt map m a = .illegal v) : map.inverse v = none ∧ m.read a.toNat = v := by
  rw [decodeAt_eq] at h
  split at h
  · rename_i found
    simp only [Decoded.illegal.injEq] at h
    exact ⟨h ▸ found, h⟩
  · simp at h

/-- Past the bound the walk has ended. -/
theorem disasmWalk_done (map : OpcodeMap) (m : Memory) {bound fuel c : Nat} (h : bound ≤ c) :
    disasmWalk map m bound fuel c = .records [] := by
  cases fuel with
  | zero => rfl
  | succ fuel => simp [disasmWalk, Nat.not_lt.mpr h]

/-- Any fuel that covers the bytes left gives the same walk. -/
theorem disasmWalk_fuel (map : OpcodeMap) (m : Memory) (bound : Nat) {f g c : Nat}
    (hf : bound - c ≤ f) (hg : bound - c ≤ g) :
    disasmWalk map m bound f c = disasmWalk map m bound g c := by
  induction f generalizing g c with
  | zero => rw [disasmWalk_done _ _ (by omega), disasmWalk_done _ _ (by omega)]
  | succ f ih =>
    by_cases h : c < bound
    · cases g with
      | zero => omega
      | succ g =>
        simp only [disasmWalk, if_pos h]
        cases found : decodeAt map m (BitVec.ofNat 16 c) with
        | illegal v => rfl
        | truncated => rfl
        | ok i len =>
          have := (decodeAt_len found).1
          simp only [ih (g := g) (c := c + len) (by omega) (by omega)]
    · rw [disasmWalk_done _ _ (by omega), disasmWalk_done _ _ (by omega)]

/-- One step of a walk with enough fuel. -/
theorem disasmWalk_step {map : OpcodeMap} {m : Memory} {bound fuel c : Nat} {i : Instr} {len : Nat}
    (inside : c < bound) (enough : bound - c ≤ fuel)
    (found : decodeAt map m (BitVec.ofNat 16 c) = .ok i len) :
    disasmWalk map m bound fuel c =
      (disasmWalk map m bound fuel (c + len)).cons (disasmRecord m (BitVec.ofNat 16 c) i len) := by
  have positive := (decodeAt_len found).1
  cases fuel with
  | zero => omega
  | succ fuel =>
    rw [disasmWalk_fuel map m bound (f := fuel + 1) (g := fuel) (c := c + len) (by omega) (by omega)]
    simp only [disasmWalk, if_pos inside, found]

theorem disasmRecord_length (m : Memory) (a : Addr) (i : Instr) {len : Nat} (h : len ≤ 4) :
    (disasmRecord m a i len).bytes.length = len := by
  simp [disasmRecord, Memory.window, h]

theorem DisasmResult.cons_eq_records {r : DisasmRecord} {d : DisasmResult}
    {rs : List DisasmRecord} (h : d.cons r = .records rs) :
    ∃ rest : List DisasmRecord, d = .records rest ∧ rs = r :: rest := by
  cases d with
  | records list => exact ⟨list, rfl, (DisasmResult.records.inj h).symm⟩
  | illegalOpcode v => simp [DisasmResult.cons] at h

theorem DisasmResult.cons_eq_illegal {r : DisasmRecord} {d : DisasmResult} {v : Byte}
    (h : d.cons r = .illegalOpcode v) : d = .illegalOpcode v := by
  cases d with
  | records list => simp [DisasmResult.cons] at h
  | illegalOpcode w => simpa [DisasmResult.cons] using h

/-- The two ways a walk goes on: it ends in a failure at an illegal byte, or it has a first record. -/
theorem disasmWalk_cases {map : OpcodeMap} {m : Memory} {bound fuel c : Nat}
    (inside : c < bound) (enough : bound - c ≤ fuel) :
    (∃ v : Byte, decodeAt map m (BitVec.ofNat 16 c) = .illegal v ∧
      disasmWalk map m bound fuel c = .illegalOpcode v) ∨
    ∃ (i : Instr) (len : Nat), decodeAt map m (BitVec.ofNat 16 c) = .ok i len ∧
      disasmWalk map m bound fuel c =
        (disasmWalk map m bound fuel (c + len)).cons
          (disasmRecord m (BitVec.ofNat 16 c) i len) := by
  cases found : decodeAt map m (BitVec.ofNat 16 c) with
  | truncated => exact absurd found (decodeAt_ne_truncated _ _ _)
  | illegal v =>
    refine .inl ⟨v, rfl, ?_⟩
    cases fuel with
    | zero => omega
    | succ fuel => simp only [disasmWalk, if_pos inside, found]
  | ok i len => exact .inr ⟨i, len, rfl, disasmWalk_step inside enough found⟩

end Sys2Proof.Machine
end

