-- ==== Sys2Proof/Laws/Host.lean ====
section
/-! SUPPORT. The port table's lists, and the cases of a host request. -/

namespace Sys2Proof.Machine

/-! ### Ports -/

theorem mem_insertPort (p q : Byte) (l : List Byte) : q ∈ insertPort p l ↔ q = p ∨ q ∈ l := by
  induction l with
  | nil => simp [insertPort]
  | cons r rest ih =>
    simp only [insertPort]
    split
    · simp
    · split
      · rename_i h; subst h; simp
      · simp only [List.mem_cons, ih]; tauto

theorem insertPort_pairwise (p : Byte) {l : List Byte} (h : l.Pairwise (· < ·)) :
    (insertPort p l).Pairwise (· < ·) := by
  induction l with
  | nil => simp [insertPort]
  | cons r rest ih =>
    simp only [insertPort]
    rw [List.pairwise_cons] at h
    split
    · rename_i lt
      refine List.pairwise_cons.mpr ⟨?_, List.pairwise_cons.mpr h⟩
      intro q hq
      rcases List.mem_cons.mp hq with rfl | hq
      · exact lt
      · exact BitVec.lt_trans lt (h.1 q hq)
    · split
      · exact List.pairwise_cons.mpr h
      · rename_i nlt ne
        refine List.pairwise_cons.mpr ⟨?_, ih h.2⟩
        intro q hq
        rcases (mem_insertPort p q rest).mp hq with rfl | hq
        · bv_omega
        · exact h.1 q hq

/-! ### Requests -/

/-- The state after a step, whatever the step answers. -/
theorem handle_step_state (s : State) : (handle .step s).2 = stateAfter s (step s) := rfl

/-- `steps` one at a time. -/
theorem steps_succ (n : Nat) (s : State) :
    steps (n + 1) s =
      match step s with
      | .next t => steps n t
      | .fault f => .fault f
      | .refused r => .refused r := rfl

/-- A property that every step's state keeps, a fault's included, is kept by `steps(n)`. -/
theorem steps_keep {P : State → Prop}
    (keep : ∀ s : State, P s → P (stateAfter s (step s))) (n : Nat) {s : State} (h : P s) :
    P (stateAfter s (steps n s)) := by
  suffices general : ∀ (n : Nat) (s base : State), P s → P base →
      P (stateAfter base (steps n s)) from general n s s h h
  intro n
  induction n with
  | zero => intro s base hs _; exact hs
  | succ n ih =>
    intro s base hs hbase
    have now := keep s hs
    rw [steps_succ]
    cases outcome : step s with
    | next t => rw [outcome] at now; exact ih t base now hbase
    | refused r => exact hbase
    | fault f =>
      cases f with
      | illegalOpcode v left => rw [outcome] at now; exact now
      | programTooLarge => exact hbase

/-- A property that every request keeps is kept by every run of requests. -/
theorem handleAll_keep {P : State → Prop} {requests : List HostRequest}
    (keep : ∀ request ∈ requests, ∀ s : State, P s → P (handle request s).2) {s : State}
    (h : P s) : P (handleAll requests s).2 := by
  induction requests generalizing s with
  | nil => exact h
  | cons request rest ih =>
    exact ih (fun r hr => keep r (List.mem_cons_of_mem _ hr))
      (keep request List.mem_cons_self s h)

/-- The state of a load, in one line. -/
theorem stateAfter_load (bytes : List Byte) (s : State) :
    stateAfter s (loadProgram bytes s) =
      if bytes.length ≤ 65536 then
        { s with pmem := s.pmem.writeBytes 0x0000 bytes, loadedLen := bytes.length }
      else s := by
  unfold loadProgram
  split <;> rfl

end Sys2Proof.Machine
end

