-- ==== Sys2Proof/Laws/PerInstr.lean ====
section
/-! SUPPORT. The statements made per instruction, one lemma per constructor: an instruction's operand
bytes are as many as its class has, and assembling them gives the instruction back. -/

namespace Sys2Proof.Laws

/-! ### OperandCount (30_encoding.md R82) -/

/-- An instruction has as many operand bytes as its class. -/
def OperandCount.Statement (i : Instr) : Prop :=
  i.operandBytes.length = i.mnemonic.operandClass.operandBytes

theorem OperandCount.nop :
    OperandCount.Statement .nop := rfl
theorem OperandCount.stop :
    OperandCount.Statement .stop := rfl
theorem OperandCount.sleep :
    OperandCount.Statement .sleep := rfl
theorem OperandCount.brk :
    OperandCount.Statement .brk := rfl
theorem OperandCount.ei :
    OperandCount.Statement .ei := rfl
theorem OperandCount.di :
    OperandCount.Statement .di := rfl
theorem OperandCount.add (d src : RegIdx) :
    OperandCount.Statement (.add d src) := rfl
theorem OperandCount.addc (d src : RegIdx) :
    OperandCount.Statement (.addc d src) := rfl
theorem OperandCount.sub (d src : RegIdx) :
    OperandCount.Statement (.sub d src) := rfl
theorem OperandCount.subc (d src : RegIdx) :
    OperandCount.Statement (.subc d src) := rfl
theorem OperandCount.inc (r : RegIdx) :
    OperandCount.Statement (.inc r) := rfl
theorem OperandCount.dec (r : RegIdx) :
    OperandCount.Statement (.dec r) := rfl
theorem OperandCount.and (d src : RegIdx) :
    OperandCount.Statement (.and d src) := rfl
theorem OperandCount.or (d src : RegIdx) :
    OperandCount.Statement (.or d src) := rfl
theorem OperandCount.xor (d src : RegIdx) :
    OperandCount.Statement (.xor d src) := rfl
theorem OperandCount.cmp (d src : RegIdx) :
    OperandCount.Statement (.cmp d src) := rfl
theorem OperandCount.cmpi (r : RegIdx) (imm : Byte) :
    OperandCount.Statement (.cmpi r imm) := rfl
theorem OperandCount.jmp (addr : Addr) :
    OperandCount.Statement (.jmp addr) := rfl
theorem OperandCount.call (addr : Addr) :
    OperandCount.Statement (.call addr) := rfl
theorem OperandCount.ret :
    OperandCount.Statement .ret := rfl
theorem OperandCount.reti :
    OperandCount.Statement .reti := rfl
theorem OperandCount.brc (addr : Addr) :
    OperandCount.Statement (.brc addr) := rfl
theorem OperandCount.brnc (addr : Addr) :
    OperandCount.Statement (.brnc addr) := rfl
theorem OperandCount.brz (addr : Addr) :
    OperandCount.Statement (.brz addr) := rfl
theorem OperandCount.brnz (addr : Addr) :
    OperandCount.Statement (.brnz addr) := rfl
theorem OperandCount.mov (d src : RegIdx) :
    OperandCount.Statement (.mov d src) := rfl
theorem OperandCount.ldi (r : RegIdx) (imm : Byte) :
    OperandCount.Statement (.ldi r imm) := rfl
theorem OperandCount.ld (r : RegIdx) (addr : Addr) :
    OperandCount.Statement (.ld r addr) := rfl
theorem OperandCount.st (r : RegIdx) (addr : Addr) :
    OperandCount.Statement (.st r addr) := rfl
theorem OperandCount.lpm (r : RegIdx) (addr : Addr) :
    OperandCount.Statement (.lpm r addr) := rfl
theorem OperandCount.ldd (r ph pl : RegIdx) :
    OperandCount.Statement (.ldd r ph pl) := rfl
theorem OperandCount.std (r ph pl : RegIdx) :
    OperandCount.Statement (.std r ph pl) := rfl
theorem OperandCount.lpmd (r ph pl : RegIdx) :
    OperandCount.Statement (.lpmd r ph pl) := rfl
theorem OperandCount.push (r : RegIdx) :
    OperandCount.Statement (.push r) := rfl
theorem OperandCount.pop (r : RegIdx) :
    OperandCount.Statement (.pop r) := rfl
theorem OperandCount.inp (r : RegIdx) (port : Byte) :
    OperandCount.Statement (.inp r port) := rfl
theorem OperandCount.out (r : RegIdx) (port : Byte) :
    OperandCount.Statement (.out r port) := rfl

/-! ### AssembleOperands (30_encoding.md R83, R93) -/

/-- Assembling an instruction's operand bytes, whatever bytes follow them, gives the instruction. -/
def AssembleOperands.Statement (i : Instr) : Prop :=
  ∀ rest : List Byte, assemble i.mnemonic ((i.operandBytes ++ rest).getD 0 0)
    ((i.operandBytes ++ rest).getD 1 0) ((i.operandBytes ++ rest).getD 2 0) = i

theorem AssembleOperands.nop :
    AssembleOperands.Statement .nop := fun _ => rfl
theorem AssembleOperands.stop :
    AssembleOperands.Statement .stop := fun _ => rfl
theorem AssembleOperands.sleep :
    AssembleOperands.Statement .sleep := fun _ => rfl
theorem AssembleOperands.brk :
    AssembleOperands.Statement .brk := fun _ => rfl
theorem AssembleOperands.ei :
    AssembleOperands.Statement .ei := fun _ => rfl
theorem AssembleOperands.di :
    AssembleOperands.Statement .di := fun _ => rfl
theorem AssembleOperands.add (d src : RegIdx) :
    AssembleOperands.Statement (.add d src) := by
  simp [AssembleOperands.Statement, assemble, Instr.mnemonic, Instr.operandBytes]
theorem AssembleOperands.addc (d src : RegIdx) :
    AssembleOperands.Statement (.addc d src) := by
  simp [AssembleOperands.Statement, assemble, Instr.mnemonic, Instr.operandBytes]
theorem AssembleOperands.sub (d src : RegIdx) :
    AssembleOperands.Statement (.sub d src) := by
  simp [AssembleOperands.Statement, assemble, Instr.mnemonic, Instr.operandBytes]
theorem AssembleOperands.subc (d src : RegIdx) :
    AssembleOperands.Statement (.subc d src) := by
  simp [AssembleOperands.Statement, assemble, Instr.mnemonic, Instr.operandBytes]
theorem AssembleOperands.inc (r : RegIdx) :
    AssembleOperands.Statement (.inc r) := by
  simp [AssembleOperands.Statement, assemble, Instr.mnemonic, Instr.operandBytes]
theorem AssembleOperands.dec (r : RegIdx) :
    AssembleOperands.Statement (.dec r) := by
  simp [AssembleOperands.Statement, assemble, Instr.mnemonic, Instr.operandBytes]
theorem AssembleOperands.and (d src : RegIdx) :
    AssembleOperands.Statement (.and d src) := by
  simp [AssembleOperands.Statement, assemble, Instr.mnemonic, Instr.operandBytes]
theorem AssembleOperands.or (d src : RegIdx) :
    AssembleOperands.Statement (.or d src) := by
  simp [AssembleOperands.Statement, assemble, Instr.mnemonic, Instr.operandBytes]
theorem AssembleOperands.xor (d src : RegIdx) :
    AssembleOperands.Statement (.xor d src) := by
  simp [AssembleOperands.Statement, assemble, Instr.mnemonic, Instr.operandBytes]
theorem AssembleOperands.cmp (d src : RegIdx) :
    AssembleOperands.Statement (.cmp d src) := by
  simp [AssembleOperands.Statement, assemble, Instr.mnemonic, Instr.operandBytes]
theorem AssembleOperands.cmpi (r : RegIdx) (imm : Byte) :
    AssembleOperands.Statement (.cmpi r imm) := by
  simp [AssembleOperands.Statement, assemble, Instr.mnemonic, Instr.operandBytes]
theorem AssembleOperands.jmp (addr : Addr) :
    AssembleOperands.Statement (.jmp addr) := by
  simp [AssembleOperands.Statement, assemble, Instr.mnemonic, Instr.operandBytes]
theorem AssembleOperands.call (addr : Addr) :
    AssembleOperands.Statement (.call addr) := by
  simp [AssembleOperands.Statement, assemble, Instr.mnemonic, Instr.operandBytes]
theorem AssembleOperands.ret :
    AssembleOperands.Statement .ret := fun _ => rfl
theorem AssembleOperands.reti :
    AssembleOperands.Statement .reti := fun _ => rfl
theorem AssembleOperands.brc (addr : Addr) :
    AssembleOperands.Statement (.brc addr) := by
  simp [AssembleOperands.Statement, assemble, Instr.mnemonic, Instr.operandBytes]
theorem AssembleOperands.brnc (addr : Addr) :
    AssembleOperands.Statement (.brnc addr) := by
  simp [AssembleOperands.Statement, assemble, Instr.mnemonic, Instr.operandBytes]
theorem AssembleOperands.brz (addr : Addr) :
    AssembleOperands.Statement (.brz addr) := by
  simp [AssembleOperands.Statement, assemble, Instr.mnemonic, Instr.operandBytes]
theorem AssembleOperands.brnz (addr : Addr) :
    AssembleOperands.Statement (.brnz addr) := by
  simp [AssembleOperands.Statement, assemble, Instr.mnemonic, Instr.operandBytes]
theorem AssembleOperands.mov (d src : RegIdx) :
    AssembleOperands.Statement (.mov d src) := by
  simp [AssembleOperands.Statement, assemble, Instr.mnemonic, Instr.operandBytes]
theorem AssembleOperands.ldi (r : RegIdx) (imm : Byte) :
    AssembleOperands.Statement (.ldi r imm) := by
  simp [AssembleOperands.Statement, assemble, Instr.mnemonic, Instr.operandBytes]
theorem AssembleOperands.ld (r : RegIdx) (addr : Addr) :
    AssembleOperands.Statement (.ld r addr) := by
  simp [AssembleOperands.Statement, assemble, Instr.mnemonic, Instr.operandBytes]
theorem AssembleOperands.st (r : RegIdx) (addr : Addr) :
    AssembleOperands.Statement (.st r addr) := by
  simp [AssembleOperands.Statement, assemble, Instr.mnemonic, Instr.operandBytes]
theorem AssembleOperands.lpm (r : RegIdx) (addr : Addr) :
    AssembleOperands.Statement (.lpm r addr) := by
  simp [AssembleOperands.Statement, assemble, Instr.mnemonic, Instr.operandBytes]
theorem AssembleOperands.ldd (r ph pl : RegIdx) :
    AssembleOperands.Statement (.ldd r ph pl) := by
  simp [AssembleOperands.Statement, assemble, Instr.mnemonic, Instr.operandBytes]
theorem AssembleOperands.std (r ph pl : RegIdx) :
    AssembleOperands.Statement (.std r ph pl) := by
  simp [AssembleOperands.Statement, assemble, Instr.mnemonic, Instr.operandBytes]
theorem AssembleOperands.lpmd (r ph pl : RegIdx) :
    AssembleOperands.Statement (.lpmd r ph pl) := by
  simp [AssembleOperands.Statement, assemble, Instr.mnemonic, Instr.operandBytes]
theorem AssembleOperands.push (r : RegIdx) :
    AssembleOperands.Statement (.push r) := by
  simp [AssembleOperands.Statement, assemble, Instr.mnemonic, Instr.operandBytes]
theorem AssembleOperands.pop (r : RegIdx) :
    AssembleOperands.Statement (.pop r) := by
  simp [AssembleOperands.Statement, assemble, Instr.mnemonic, Instr.operandBytes]
theorem AssembleOperands.inp (r : RegIdx) (port : Byte) :
    AssembleOperands.Statement (.inp r port) := by
  simp [AssembleOperands.Statement, assemble, Instr.mnemonic, Instr.operandBytes]
theorem AssembleOperands.out (r : RegIdx) (port : Byte) :
    AssembleOperands.Statement (.out r port) := by
  simp [AssembleOperands.Statement, assemble, Instr.mnemonic, Instr.operandBytes]

end Sys2Proof.Laws
end

