-- ==== Sys2Proof/Tests/Slice0.lean ====
section
/-! SUPPORT. Tests and witnesses. The expected results are those of 95_test_vectors.md L1 and L2 (and of
the rules a comment names), never the model's own answers. -/

namespace Sys2Proof.Tests

open Sys2Proof.Machine

/-! ### Helpers -/

/-- The state after reset with `pc` at `at` and bytes placed there (95_test_vectors.md, conventions). -/
def startAt (pc : Addr) (bytes : List Byte) : State :=
  { State.reset with pc := pc, pmem := Memory.writeBytes [] pc bytes }

/-- One view of the state a step leaves, if it completes. -/
def after {α : Type} (view : State → α) (s : State) : Option α :=
  match step s with
  | .next t => some (view t)
  | .fault _ => none
  | .refused _ => none

/-- The byte and the state left of a step that faults. -/
def faultOf (s : State) : Option (Byte × State) :=
  match step s with
  | .next _ => none
  | .fault (.illegalOpcode v left) => some (v, left)
  | .fault .programTooLarge => none
  | .refused _ => none

/-- R1, `C` and `Z` after one instruction at 0000, with R1 = `a`, R2 = `b` and `C` = `cin` before. -/
def alu (bytes : List Byte) (a b : Byte) (cin : Bool) : Option (Byte × Bool × Bool) :=
  after (fun t => (t.reg 1, t.carry, t.zero))
    { ((startAt 0x0000 bytes).setReg 1 a).setReg 2 b with carry := cin }

/-- `pc` after a branch at 0100 to 0200 with the given flags. -/
def branch (opcode : Byte) (c z : Bool) : Option Addr :=
  after State.pc { startAt 0x0100 [opcode, 0x02, 0x00] with carry := c, zero := z }

/-- No line pending. -/
def noLine : Pending := ⟨false, false, false, false⟩

/-! ### Well-formedness: each check refuses an ill-formed opcode map (30_encoding.md R88) -/

theorem test_standard_map_wf : OpcodeMap.standard.wf = true := by decide

theorem test_other_map_wf : { OpcodeMap.standard with add := 0xFF }.wf = true := by decide

/-- ADD and ADDC share 0x11. -/
theorem test_isInjective_refuses :
    { OpcodeMap.standard with add := 0x11 }.isInjective = false ∧
    { OpcodeMap.standard with add := 0x11 }.wf = false := by decide

/-- NOP is not 0x00. -/
theorem test_fixesNop_refuses :
    { OpcodeMap.standard with nop := 0x0F }.fixesNop = false ∧
    { OpcodeMap.standard with nop := 0x0F }.wf = false := by decide

/-- INC is not 0x14. -/
theorem test_fixesInc_refuses :
    { OpcodeMap.standard with inc := 0x16 }.fixesInc = false ∧
    { OpcodeMap.standard with inc := 0x16 }.wf = false := by decide

/-- A configuration with an ill-formed map is ill formed, and so is a state that holds it. -/
theorem test_config_wf_refuses :
    { Config.standard with opcodeMap := { OpcodeMap.standard with inc := 0x16 } }.wf = false ∧
    { State.reset with
      config := { Config.standard with opcodeMap := { OpcodeMap.standard with inc := 0x16 } }
    }.wf = false := by decide

/-- A memory out of order, one that lists 0x00, and one past the top are not canonical. -/
theorem test_memory_wf_refuses :
    Memory.wf [(2, 0x01), (1, 0x01)] = false ∧ Memory.wf [(1, 0x00)] = false ∧
    Memory.wf [(65536, 0x01)] = false ∧ Memory.wf [(0, 0x01), (65535, 0xFF)] = true := by decide

/-! ### Decoding: one word for each instruction, written out from 95_test_vectors.md L2.9 and
30_encoding.md R82, R86 -/

theorem test_decode_nop :
    decodeTableWord 8 0x00 = some .nop ∧
    encode OpcodeMap.standard .nop = [0x00] ∧ render .nop = "NOP" := by decide

theorem test_decode_stop :
    decodeTableWord 8 0x01 = some .stop ∧
    encode OpcodeMap.standard .stop = [0x01] ∧ render .stop = "STOP" := by decide

theorem test_decode_sleep :
    decodeTableWord 8 0x02 = some .sleep ∧
    encode OpcodeMap.standard .sleep = [0x02] ∧ render .sleep = "SLEEP" := by decide

theorem test_decode_brk :
    decodeTableWord 8 0x03 = some .brk ∧
    encode OpcodeMap.standard .brk = [0x03] ∧ render .brk = "BREAK" := by decide

theorem test_decode_ei :
    decodeTableWord 8 0x04 = some .ei ∧
    encode OpcodeMap.standard .ei = [0x04] ∧ render .ei = "EI" := by decide

theorem test_decode_di :
    decodeTableWord 8 0x05 = some .di ∧
    encode OpcodeMap.standard .di = [0x05] ∧ render .di = "DI" := by decide

theorem test_decode_add :
    decodeTableWord 16 0x1012 = some (.add 1 2) ∧
    encode OpcodeMap.standard (.add 1 2) = [0x10, 0x12] ∧ render (.add 1 2) = "ADD R1, R2" := by decide

theorem test_decode_addc :
    decodeTableWord 16 0x1101 = some (.addc 0 1) ∧
    encode OpcodeMap.standard (.addc 0 1) = [0x11, 0x01] ∧ render (.addc 0 1) = "ADDC R0, R1" := by decide

theorem test_decode_sub :
    decodeTableWord 16 0x1234 = some (.sub 3 4) ∧
    encode OpcodeMap.standard (.sub 3 4) = [0x12, 0x34] ∧ render (.sub 3 4) = "SUB R3, R4" := by decide

theorem test_decode_subc :
    decodeTableWord 16 0x1356 = some (.subc 5 6) ∧
    encode OpcodeMap.standard (.subc 5 6) = [0x13, 0x56] ∧ render (.subc 5 6) = "SUBC R5, R6" := by decide

theorem test_decode_inc :
    decodeTableWord 16 0x1400 = some (.inc 0) ∧
    encode OpcodeMap.standard (.inc 0) = [0x14, 0x00] ∧ render (.inc 0) = "INC R0" := by decide

theorem test_decode_dec :
    decodeTableWord 16 0x150F = some (.dec 15) ∧
    encode OpcodeMap.standard (.dec 15) = [0x15, 0x0F] ∧ render (.dec 15) = "DEC R15" := by decide

theorem test_decode_and :
    decodeTableWord 16 0x2078 = some (.and 7 8) ∧
    encode OpcodeMap.standard (.and 7 8) = [0x20, 0x78] ∧ render (.and 7 8) = "AND R7, R8" := by decide

theorem test_decode_or :
    decodeTableWord 16 0x219A = some (.or 9 10) ∧
    encode OpcodeMap.standard (.or 9 10) = [0x21, 0x9A] ∧ render (.or 9 10) = "OR R9, R10" := by decide

theorem test_decode_xor :
    decodeTableWord 16 0x22BC = some (.xor 11 12) ∧
    encode OpcodeMap.standard (.xor 11 12) = [0x22, 0xBC] ∧ render (.xor 11 12) = "XOR R11, R12" := by decide

theorem test_decode_cmp :
    decodeTableWord 16 0x23DE = some (.cmp 13 14) ∧
    encode OpcodeMap.standard (.cmp 13 14) = [0x23, 0xDE] ∧ render (.cmp 13 14) = "CMP R13, R14" := by decide

theorem test_decode_cmpi :
    decodeTableWord 24 0x240341 = some (.cmpi 3 0x41) ∧
    encode OpcodeMap.standard (.cmpi 3 0x41) = [0x24, 0x03, 0x41] ∧ render (.cmpi 3 0x41) = "CMPI R3, 0x41" := by decide

theorem test_decode_jmp :
    decodeTableWord 24 0x301234 = some (.jmp 0x1234) ∧
    encode OpcodeMap.standard (.jmp 0x1234) = [0x30, 0x12, 0x34] ∧ render (.jmp 0x1234) = "JMP 0x1234" := by decide

theorem test_decode_call :
    decodeTableWord 24 0x310100 = some (.call 0x0100) ∧
    encode OpcodeMap.standard (.call 0x0100) = [0x31, 0x01, 0x00] ∧ render (.call 0x0100) = "CALL 0x0100" := by decide

theorem test_decode_ret :
    decodeTableWord 8 0x32 = some .ret ∧
    encode OpcodeMap.standard .ret = [0x32] ∧ render .ret = "RET" := by decide

theorem test_decode_reti :
    decodeTableWord 8 0x33 = some .reti ∧
    encode OpcodeMap.standard .reti = [0x33] ∧ render .reti = "RETI" := by decide

theorem test_decode_brc :
    decodeTableWord 24 0x340010 = some (.brc 0x0010) ∧
    encode OpcodeMap.standard (.brc 0x0010) = [0x34, 0x00, 0x10] ∧ render (.brc 0x0010) = "BRC 0x0010" := by decide

theorem test_decode_brnc :
    decodeTableWord 24 0x350010 = some (.brnc 0x0010) ∧
    encode OpcodeMap.standard (.brnc 0x0010) = [0x35, 0x00, 0x10] ∧ render (.brnc 0x0010) = "BRNC 0x0010" := by decide

theorem test_decode_brz :
    decodeTableWord 24 0x360010 = some (.brz 0x0010) ∧
    encode OpcodeMap.standard (.brz 0x0010) = [0x36, 0x00, 0x10] ∧ render (.brz 0x0010) = "BRZ 0x0010" := by decide

theorem test_decode_brnz :
    decodeTableWord 24 0x370010 = some (.brnz 0x0010) ∧
    encode OpcodeMap.standard (.brnz 0x0010) = [0x37, 0x00, 0x10] ∧ render (.brnz 0x0010) = "BRNZ 0x0010" := by decide

theorem test_decode_mov :
    decodeTableWord 16 0x401F = some (.mov 1 15) ∧
    encode OpcodeMap.standard (.mov 1 15) = [0x40, 0x1F] ∧ render (.mov 1 15) = "MOV R1, R15" := by decide

theorem test_decode_ldi :
    decodeTableWord 24 0x41032A = some (.ldi 3 0x2A) ∧
    encode OpcodeMap.standard (.ldi 3 0x2A) = [0x41, 0x03, 0x2A] ∧ render (.ldi 3 0x2A) = "LDI R3, 0x2A" := by decide

theorem test_decode_ld :
    decodeTableWord 32 0x420100FF = some (.ld 1 0x00FF) ∧
    encode OpcodeMap.standard (.ld 1 0x00FF) = [0x42, 0x01, 0x00, 0xFF] ∧ render (.ld 1 0x00FF) = "LD R1, 0x00FF" := by decide

theorem test_decode_st :
    decodeTableWord 32 0x43028000 = some (.st 2 0x8000) ∧
    encode OpcodeMap.standard (.st 2 0x8000) = [0x43, 0x02, 0x80, 0x00] ∧ render (.st 2 0x8000) = "ST R2, 0x8000" := by decide

theorem test_decode_lpm :
    decodeTableWord 32 0x44000100 = some (.lpm 0 0x0100) ∧
    encode OpcodeMap.standard (.lpm 0 0x0100) = [0x44, 0x00, 0x01, 0x00] ∧ render (.lpm 0 0x0100) = "LPM R0, 0x0100" := by decide

theorem test_decode_ldd :
    decodeTableWord 24 0x450423 = some (.ldd 4 2 3) ∧
    encode OpcodeMap.standard (.ldd 4 2 3) = [0x45, 0x04, 0x23] ∧ render (.ldd 4 2 3) = "LDD R4, R2:R3" := by decide

theorem test_decode_std :
    decodeTableWord 24 0x460567 = some (.std 5 6 7) ∧
    encode OpcodeMap.standard (.std 5 6 7) = [0x46, 0x05, 0x67] ∧ render (.std 5 6 7) = "STD R5, R6:R7" := by decide

theorem test_decode_lpmd :
    decodeTableWord 24 0x470023 = some (.lpmd 0 2 3) ∧
    encode OpcodeMap.standard (.lpmd 0 2 3) = [0x47, 0x00, 0x23] ∧ render (.lpmd 0 2 3) = "LPMD R0, R2:R3" := by decide

theorem test_decode_push :
    decodeTableWord 16 0x5001 = some (.push 1) ∧
    encode OpcodeMap.standard (.push 1) = [0x50, 0x01] ∧ render (.push 1) = "PUSH R1" := by decide

theorem test_decode_pop :
    decodeTableWord 16 0x5102 = some (.pop 2) ∧
    encode OpcodeMap.standard (.pop 2) = [0x51, 0x02] ∧ render (.pop 2) = "POP R2" := by decide

theorem test_decode_inp :
    decodeTableWord 24 0x520110 = some (.inp 1 0x10) ∧
    encode OpcodeMap.standard (.inp 1 0x10) = [0x52, 0x01, 0x10] ∧ render (.inp 1 0x10) = "IN R1, 0x10" := by decide

theorem test_decode_out :
    decodeTableWord 24 0x530005 = some (.out 0 0x05) ∧
    encode OpcodeMap.standard (.out 0 0x05) = [0x53, 0x00, 0x05] ∧ render (.out 0 0x05) = "OUT R0, 0x05" := by decide

/-- 95_test_vectors.md L2.8: illegal bytes are rejected by name. -/
theorem test_decode_illegal :
    [0x06, 0x0F, 0x16, 0x1F, 0x25, 0x2F, 0x38, 0x3F, 0x48, 0x4F, 0x54, 0x60, 0x80, 0xAA, 0xFF].all
      (fun v => decodeBytes OpcodeMap.standard [v, 0, 0, 0] == .illegal v) = true := by decide

/-- 95_test_vectors.md L2.8: the ignored nibble of a register-index byte. -/
theorem test_decode_ignored_nibble :
    decodeBytes OpcodeMap.standard [0x14, 0xF3] = .ok (.inc 3) 2 ∧
    encode OpcodeMap.standard (.inc 3) = [0x14, 0x03] := by decide

/-- 30_encoding.md R88: another admissible map decodes by its own bytes. -/
theorem test_decode_other_map :
    decodeBytes { OpcodeMap.standard with add := 0xFF } [0xFF, 0x12] = .ok (.add 1 2) 2 ∧
    decodeBytes { OpcodeMap.standard with add := 0xFF } [0x10, 0x12] = .illegal 0x10 := by decide

/-! ### System instructions (L2.1) -/

theorem test_nop :
    after id (startAt 0x0005 [0x00]) = some { startAt 0x0005 [0x00] with pc := 0x0006 } ∧
    after id (startAt 0xFFFF [0x00]) = some { startAt 0xFFFF [0x00] with pc := 0x0000 } := by decide

theorem test_stop :
    after id (startAt 0x0010 [0x01]) =
      some { startAt 0x0010 [0x01] with pc := 0x0011, status := .stopped } := by decide

theorem test_sleep :
    after id { startAt 0x0100 [0x02] with ie := true } =
      some { startAt 0x0100 [0x02] with ie := true, pc := 0x0101, status := .sleeping } := by
  decide

theorem test_break :
    after id (startAt 0x0002 [0x03]) =
      some { startAt 0x0002 [0x03] with pc := 0x0003, events := [.brk 0x0002] } := by decide

theorem test_ei :
    after id { startAt 0x0000 [0x04] with pend := { noLine with button := true } } =
      some { startAt 0x0000 [0x04] with
        pend := { noLine with button := true }, ie := true, pc := 0x0001 } := by decide

/-- L2.1: the step after EI takes the pending interrupt. -/
theorem test_ei_then_dispatch :
    after (fun t => (t.readData 0xFFFF, t.readData 0xFFFE, t.sp, t.ie, t.pc))
      { startAt 0x0001 [0x00] with ie := true, pend := { noLine with button := true } } =
    some (0x00, 0x01, 0xFFFD, false, 0x0021) := by decide

theorem test_di :
    after (fun t => (t.ie, t.pc)) { startAt 0x0000 [0x05] with ie := true } =
      some (false, 0x0001) := by decide

/-! ### Arithmetic, logic and compare (L2.2, L2.3) -/

theorem test_add :
    alu [0x10, 0x12] 0xFF 0x01 false = some (0x00, true, true) ∧
    alu [0x10, 0x12] 0x7F 0x01 false = some (0x80, false, false) ∧
    alu [0x10, 0x12] 0x12 0x34 true = some (0x46, false, false) := by decide

theorem test_add_same_register :
    alu [0x10, 0x11] 0x80 0x00 false = some (0x00, true, true) ∧
    alu [0x10, 0x11] 0xFF 0x00 false = some (0xFE, true, false) := by decide

theorem test_addc :
    alu [0x11, 0x12] 0xFF 0xFF true = some (0xFF, true, false) ∧
    alu [0x11, 0x12] 0xFF 0x00 true = some (0x00, true, true) ∧
    alu [0x11, 0x12] 0x80 0x80 false = some (0x00, true, true) := by decide

theorem test_sub :
    alu [0x12, 0x12] 0x03 0x05 false = some (0xFE, true, false) ∧
    alu [0x12, 0x12] 0x42 0x42 false = some (0x00, false, true) ∧
    alu [0x12, 0x12] 0x10 0x20 true = some (0xF0, true, false) := by decide

theorem test_subc :
    alu [0x13, 0x12] 0x05 0x05 true = some (0xFF, true, false) ∧
    alu [0x13, 0x12] 0x00 0xFF true = some (0x00, true, true) ∧
    alu [0x13, 0x12] 0x01 0x00 true = some (0x00, false, true) := by decide

theorem test_inc :
    alu [0x14, 0x01] 0xFF 0x00 false = some (0x00, true, true) ∧
    alu [0x14, 0x01] 0xFE 0x00 true = some (0xFF, false, false) := by decide

theorem test_dec :
    alu [0x15, 0x01] 0x00 0x00 false = some (0xFF, true, false) ∧
    alu [0x15, 0x01] 0x01 0x00 false = some (0x00, false, true) ∧
    alu [0x15, 0x01] 0xFF 0x00 true = some (0xFE, false, false) := by decide

theorem test_and :
    alu [0x20, 0x12] 0xF0 0x0F true = some (0x00, false, true) ∧
    alu [0x20, 0x12] 0xFF 0x3C false = some (0x3C, false, false) := by decide

theorem test_or :
    alu [0x21, 0x12] 0x00 0x00 true = some (0x00, false, true) ∧
    alu [0x21, 0x12] 0xA0 0x05 false = some (0xA5, false, false) := by decide

theorem test_xor :
    alu [0x22, 0x12] 0x5A 0x5A true = some (0x00, false, true) ∧
    alu [0x22, 0x12] 0xFF 0x0F false = some (0xF0, false, false) := by decide

theorem test_cmp :
    alu [0x23, 0x12] 0x03 0x05 false = some (0x03, true, false) ∧
    alu [0x23, 0x12] 0x05 0x03 true = some (0x05, false, false) ∧
    alu [0x23, 0x12] 0x07 0x07 false = some (0x07, false, true) := by decide

theorem test_cmpi :
    alu [0x24, 0x01, 0x41] 0x41 0x00 false = some (0x41, false, true) ∧
    alu [0x24, 0x01, 0x01] 0x00 0x00 false = some (0x00, true, false) ∧
    alu [0x24, 0x01, 0x7F] 0x80 0x00 true = some (0x80, false, false) := by decide

/-! ### Control transfer (L2.4) -/

theorem test_jmp : after State.pc (startAt 0x0000 [0x30, 0x12, 0x34]) = some 0x1234 := by decide

theorem test_call :
    after (fun t => (t.readData 0xFFFF, t.readData 0xFFFE, t.sp, t.pc))
      (startAt 0x0004 [0x31, 0x01, 0x00]) = some (0x00, 0x07, 0xFFFD, 0x0100) := by decide

/-- CALL with `sp` = 0000, at 1200. -/
theorem test_call_wraps :
    after (fun t => (t.readData 0x0000, t.readData 0xFFFF, t.sp))
      { startAt 0x1200 [0x31, 0x01, 0x00] with sp := 0x0000 } = some (0x12, 0x03, 0xFFFE) := by
  decide

theorem test_ret :
    after (fun t => (t.pc, t.sp))
      { startAt 0x0100 [0x32] with sp := 0xFFFD, dmem := [(0xFFFE, 0x07)] } =
    some (0x0007, 0xFFFF) := by decide

theorem test_ret_wraps :
    after (fun t => (t.pc, t.sp))
      { startAt 0x0100 [0x32] with dmem := [(0x0000, 0x34), (0x0001, 0x12)] } =
    some (0x1234, 0x0001) := by decide

theorem test_reti :
    after (fun t => (t.pc, t.sp, t.ie))
      { startAt 0x0100 [0x33] with sp := 0xFFFD, dmem := [(0xFFFE, 0x07)] } =
    some (0x0007, 0xFFFF, true) := by decide

theorem test_brc :
    branch 0x34 false false = some 0x0103 ∧ branch 0x34 false true = some 0x0103 ∧
    branch 0x34 true false = some 0x0200 ∧ branch 0x34 true true = some 0x0200 := by decide

theorem test_brnc :
    branch 0x35 false false = some 0x0200 ∧ branch 0x35 false true = some 0x0200 ∧
    branch 0x35 true false = some 0x0103 ∧ branch 0x35 true true = some 0x0103 := by decide

theorem test_brz :
    branch 0x36 false false = some 0x0103 ∧ branch 0x36 false true = some 0x0200 ∧
    branch 0x36 true false = some 0x0103 ∧ branch 0x36 true true = some 0x0200 := by decide

theorem test_brnz :
    branch 0x37 false false = some 0x0200 ∧ branch 0x37 false true = some 0x0103 ∧
    branch 0x37 true false = some 0x0200 ∧ branch 0x37 true true = some 0x0103 := by decide

/-- A branch at FFFD: the fall-through wraps. -/
theorem test_brnz_wraps :
    after State.pc (startAt 0xFFFD [0x37, 0x00, 0x10]) = some 0x0010 ∧
    after State.pc { startAt 0xFFFD [0x37, 0x00, 0x10] with zero := true } = some 0x0000 := by
  decide

/-! ### Data transfer (L2.5) -/

theorem test_mov :
    after (fun t => (t.reg 1, t.reg 15, t.carry, t.zero))
      { (startAt 0x0000 [0x40, 0x1F]).setReg 15 0x9C with carry := true } =
    some (0x9C, 0x9C, true, false) := by decide

theorem test_ldi :
    after (fun t => t.reg 3) (startAt 0x0000 [0x41, 0x03, 0x2A]) = some 0x2A ∧
    after (fun t => t.reg 3) (startAt 0x0000 [0x41, 0xA3, 0x2A]) = some 0x2A := by decide

theorem test_ld :
    after (fun t => t.reg 1)
      { startAt 0x0000 [0x42, 0x01, 0x00, 0xFF] with dmem := [(0x00FF, 0x5E)] } = some 0x5E := by
  decide

theorem test_st :
    after (fun t => (t.dmem, t.pc)) ((startAt 0x0000 [0x43, 0x02, 0x80, 0x00]).setReg 2 0x77) =
      some ([(0x8000, 0x77)], 0x0004) := by decide

/-- At 0000, LPM of address 0003 reads its own last byte. -/
theorem test_lpm :
    after (fun t => t.reg 0) (startAt 0x0000 [0x44, 0x00, 0x00, 0x03]) = some 0x03 := by decide

theorem test_ldd :
    after (fun t => t.reg 4)
      { ((startAt 0x0000 [0x45, 0x04, 0x23]).setReg 2 0x12).setReg 3 0x34 with
        dmem := [(0x1234, 0x99)] } = some 0x99 := by decide

/-- The data register is a pointer register (D20). -/
theorem test_ldd_overlap :
    after (fun t => (t.reg 2, t.reg 3))
      { ((startAt 0x0000 [0x45, 0x02, 0x23]).setReg 2 0x12).setReg 3 0x34 with
        dmem := [(0x1234, 0x99)] } = some (0x99, 0x34) := by decide

theorem test_std :
    after State.dmem
      ((((startAt 0x0000 [0x46, 0x05, 0x67]).setReg 5 0xAB).setReg 6 0xFF).setReg 7 0xFF) =
    some [(0xFFFF, 0xAB)] := by decide

theorem test_lpmd :
    after (fun t => t.reg 0)
      { (startAt 0x0000 []).setReg 3 0x20 with
        pmem := [(0x0000, 0x47), (0x0002, 0x23), (0x0020, 0xAA)] } = some 0xAA := by decide

/-! ### Stack and ports (L2.6) -/

theorem test_push :
    after (fun t => (t.dmem, t.sp)) ((startAt 0x0000 [0x50, 0x01]).setReg 1 0x11) =
      some ([(0xFFFF, 0x11)], 0xFFFE) := by decide

theorem test_push_wraps :
    after (fun t => (t.dmem, t.sp))
      { (startAt 0x0000 [0x50, 0x00]).setReg 0 0x5A with sp := 0x0000 } =
    some ([(0x0000, 0x5A)], 0xFFFF) := by decide

theorem test_pop :
    after (fun t => (t.reg 2, t.sp))
      { startAt 0x0000 [0x51, 0x02] with sp := 0xFFFE, dmem := [(0xFFFF, 0x11)] } =
    some (0x11, 0xFFFF) := by decide

theorem test_pop_wraps :
    after (fun t => (t.reg 2, t.sp))
      { startAt 0x0000 [0x51, 0x02] with dmem := [(0x0000, 0x77)] } = some (0x77, 0x0000) := by
  decide

theorem test_in_unbound :
    after (fun t => (t.reg 1, t.events, t.draws)) ((startAt 0x0000 [0x52, 0x01, 0x10]).setReg 1 0xEE) =
      some (0x00, [.portRd 0x10 0x00], 0) := by decide

/-- The value is a free one (D14): the register, the event and the one call hold the same draw. -/
theorem test_in_bound :
    after (fun t => (t.reg 1, t.events, t.portCalls, t.draws))
      { startAt 0x0000 [0x52, 0x01, 0x10] with ports := ⟨[0x10], []⟩ } =
    some (Config.portDraw 0, [.portRd 0x10 (Config.portDraw 0)],
      [.portRd 0x10 (Config.portDraw 0)], 1) := by rfl

theorem test_out :
    after (fun t => (t.events, t.dmem, t.pc)) ((startAt 0x0000 [0x53, 0x00, 0x20]).setReg 0 0x77) =
      some ([.portWr 0x20 0x77], [], 0x0003) := by decide

/-- A write reaches the callback of a bound port only (20_memory.md R67, R68). -/
theorem test_out_calls :
    after State.portCalls
      { startAt 0x0000 [0x53, 0x00, 0x20] with ports := ⟨[], [0x20]⟩ } =
        some [.portWr 0x20 0x00] ∧
    after State.portCalls (startAt 0x0000 [0x53, 0x00, 0x20]) = some [] := by decide

/-- A binding affects later writes only (40_execution_cycle.md R142): the OUT before it stays
undelivered, the OUT after it is delivered. -/
theorem test_bind_after_out :
    (handleAll [.step, .bind 0x20 false true]
      (startAt 0x0000 [0x53, 0x00, 0x20, 0x53, 0x00, 0x20])).2.portCalls = [] ∧
    (handleAll [.step, .bind 0x20 false true, .step]
      (startAt 0x0000 [0x53, 0x00, 0x20, 0x53, 0x00, 0x20])).2.portCalls = [.portWr 0x20 0x00] := by
  decide

/-! ### Interrupts and status (L2.7, L1.7) -/

theorem test_dispatch_vblank_first :
    after (fun t => (t.readData 0xFFFF, t.readData 0xFFFE, t.sp, t.ie, t.pend, t.pc))
      { startAt 0x0100 [] with ie := true, pend := ⟨true, true, true, true⟩ } =
    some (0x01, 0x00, 0xFFFD, false, ⟨false, true, true, true⟩, 0x0011) := by decide

theorem test_dispatch_serial :
    after State.pc { startAt 0x0100 [] with ie := true, pend := { noLine with serial := true } } =
      some 0x0041 := by decide

theorem test_no_dispatch_without_ie :
    after (fun t => (t.pend, t.pc)) { startAt 0x0100 [] with pend := { noLine with button := true } } =
      some ({ noLine with button := true }, 0x0101) := by decide

theorem test_stopped_ignores_lines :
    after id { startAt 0x0100 [] with
      status := .stopped, ie := true, pend := { noLine with vblank := true } } =
    some { startAt 0x0100 [] with
      status := .stopped, ie := true, pend := { noLine with vblank := true } } := by decide

theorem test_sleeping_waits_then_wakes :
    after id { startAt 0x0052 [] with status := .sleeping, ie := true } =
      some { startAt 0x0052 [] with status := .sleeping, ie := true } ∧
    after (fun t => (t.status, t.readData 0xFFFE, t.pc))
      { startAt 0x0052 [] with
        status := .sleeping, ie := true, pend := { noLine with keyboard := true } } =
    some (.running, 0x52, 0x0031) := by decide

/-- L2.7: the dispatch of a step that faults at the vector is done. -/
theorem test_fault_after_dispatch :
    faultOf { startAt 0x0200 [] with
      pmem := [(0x0010, 0xFF)], ie := true, pend := { noLine with vblank := true } } =
    some (0xFF, { startAt 0x0200 [] with
      pmem := [(0x0010, 0xFF)], dmem := [(0xFFFF, 0x02)], sp := 0xFFFD, pc := 0x0011 }) := by
  decide

/-- `DISPATCH_THEN_FETCH` false (40_execution_cycle.md R126). -/
theorem test_dispatch_only :
    after (fun t => (t.readData 0xFFFF, t.sp, t.pc))
      { startAt 0x0100 [] with
        config := { Config.standard with dispatchThenFetch := false }
        ie := true, pend := { noLine with button := true } } = some (0x01, 0xFFFD, 0x0020) := by
  decide

/-- `PUSH16_ORDER` low first (20_memory.md R60). -/
theorem test_low_first :
    after (fun t => (t.readData 0xFFFF, t.readData 0xFFFE))
      { startAt 0x0004 [0x31, 0x01, 0x00] with
        config := { Config.standard with push16Order := .lowFirst } } = some (0x07, 0x00) := by
  decide

/-! ### Faults, fetching and the host (L2.8, L2.10, L2.11, L1.11) -/

theorem test_illegal_opcode :
    faultOf (startAt 0x0003 [0xFF]) =
      some (0xFF, { startAt 0x0003 [0xFF] with pc := 0x0004 }) ∧
    faultOf (startAt 0xFFFF [0xFF]) =
      some (0xFF, { startAt 0xFFFF [0xFF] with pc := 0x0000 }) := by decide

theorem test_fetch_wraps :
    after State.pc (startAt 0xFFFE [0x30, 0x12, 0x34]) = some 0x1234 := by decide

/-- L1.11: any state, then reset. -/
theorem test_reset :
    resetCore { (State.reset.setReg 7 0x5A) with
      dmem := [(0x1234, 0x99)], carry := true, zero := true, ie := true
      pend := { noLine with serial := true }, sp := 0x8000, pc := 0x4321, status := .stopped
      pmem := [(0x0000, 0x41)] } =
    { State.reset with pmem := [(0x0000, 0x41)] } := by decide

/-- L2.11: a load keeps the tail of program memory (D16). -/
theorem test_load_keeps_tail :
    (handle (.load [0x00]) (handle (.load [0x41, 0x00, 0x05, 0x01]) State.reset).2).2 =
      { State.reset with pmem := [(2, 0x05), (3, 0x01)], loadedLen := 1 } := by decide

/-- L2.8: `steps(5)` on `41 00 07 FF`. -/
theorem test_steps_stop_at_fault :
    (handle (.steps 5) (startAt 0x0000 [0x41, 0x00, 0x07, 0xFF])).1 =
      .stepsDone [[]] (some 0xFF) := by decide

/-- L2.10: the 8-byte program with `LoadedLength` and `L` = 8. -/
theorem test_disassemble_loaded :
    disassemble { startAt 0x0000 [0x41, 0x03, 0x2A, 0x10, 0x12, 0x30, 0x00, 0x00] with
      loadedLen := 8, config := { Config.standard with disasmBound := .loadedLength } } =
    .records [⟨0x0000, [0x41, 0x03, 0x2A], "LDI R3, 0x2A"⟩, ⟨0x0003, [0x10, 0x12], "ADD R1, R2"⟩,
      ⟨0x0005, [0x30, 0x00, 0x00], "JMP 0x0000"⟩] := by decide

/-- 30_encoding.md R104: a walk that reaches an illegal byte gives no record. -/
theorem test_disassemble_illegal :
    disassemble { startAt 0x0000 [0x00, 0xAA] with
      loadedLen := 2, config := { Config.standard with disasmBound := .loadedLength } } =
    .illegalOpcode 0xAA := by decide

/-- `withFetchWord` runs exactly its word, as the first instruction after reset and elsewhere. -/
theorem test_withFetchWord :
    after id (State.reset.withFetchWord 24 0x41032A) =
      some { (startAt 0x0003 []).setReg 3 0x2A with
        pmem := [(0x0000, 0x41), (0x0001, 0x03), (0x0002, 0x2A)] } ∧
    after State.pc ({ startAt 0x0200 [] with
      status := .stopped, ie := true, pend := { noLine with button := true } }.withFetchWord
        24 0x301234) = some 0x1234 := by decide

/-! ### Witnesses: for each statement with hypotheses, a state and operands that meet all of them -/

/-- R1 = FF, R2 = 01, R3 = 80 and `C` set, NOPs everywhere. -/
def sample : State :=
  { ((State.reset.setReg 1 0xFF).setReg 2 0x01).setReg 3 0x80 with carry := true }

/-- The small disassembly bound. -/
def loadedConfig : Config := { Config.standard with disasmBound := .loadedLength }

theorem witness_ResetSetsEveryValue :
    ∃ t : State, t = (handle .reset sample).2 ∧ t ≠ sample := ⟨_, rfl, by decide⟩

theorem witness_FirstStepAfterResetFetchesAtZero :
    decodeAt sample.config.opcodeMap sample.pmem 0x0000 = .ok .nop 1 ∧
    decodeAt Config.standard.opcodeMap (startAt 0x0000 [0x42, 0x01, 0x00, 0xFF]).pmem 0x0000 =
      .ok (.ld 1 0x00FF) 4 := by decide

/-- The premise of `encodesAs`, by the default map and by another. -/
theorem witness_encodesAs :
    OpcodeMap.standard.wf = true ∧ { OpcodeMap.standard with stop := 0xFE }.wf = true := by decide

/-- Sums 100 and 0, with `C` set and clear. -/
theorem witness_AddAndAddcGiveSumCarryAndZero :
    (0x100 = (sample.reg 1).toNat + (sample.reg 2).toNat ∧ sample.carry = true) ∧
    (0 = (State.reset.reg 1).toNat + (State.reset.reg 1).toNat ∧ State.reset.carry = false) := by
  decide

theorem witness_CarryInClosedForms :
    (0xFF = (sample.reg 1).toNat ∧ 0xFF = (sample.reg 1).toNat ∧ 1 = sample.carry.toNat) ∧
    (0 = (State.reset.reg 1).toNat ∧ 0 = (State.reset.reg 2).toNat ∧
      0 = State.reset.carry.toNat) := by decide

/-- 01 - FF with `C` set, and 00 - 00 with `C` clear. -/
theorem witness_SubAndSubcGiveDifferenceBorrowAndZero :
    (0x01 = (sample.reg 2).toNat ∧ 0xFF = (sample.reg 1).toNat ∧
      0x02 = (0x01 + 256 - 0xFF) % 256 ∧ sample.carry = true) ∧
    (0 = (State.reset.reg 1).toNat ∧ 0 = (State.reset.reg 2).toNat ∧
      0 = (0 + 256 - 0) % 256 ∧ State.reset.carry = false) := by decide

theorem witness_IncAndDecMoveByOne :
    0xFF = (sample.reg 1).toNat ∧ 0 = (sample.reg 0).toNat ∧ 1 = (sample.reg 2).toNat := by decide

/-- R1:R2 with R3:R1: the high bytes' registers are not the low result's. -/
theorem witness_TwoByteAddAndSubtract :
    (1 : RegIdx) ≠ 2 ∧ (3 : RegIdx) ≠ 2 ∧
    (∃ t u : State, exec (.add 2 1) sample = .next t ∧ exec (.addc 1 3) t = .next u ∧
      (ptrAddr 1 2 sample).toNat + (ptrAddr 3 1 sample).toNat = 0x18000) ∧
    (∃ t u : State, exec (.sub 2 1) sample = .next t ∧ exec (.subc 1 3) t = .next u) :=
  ⟨by decide, by decide, ⟨_, _, rfl, rfl, by decide⟩, ⟨_, _, rfl, rfl⟩⟩

theorem witness_LogicClearsCarry : 0xFF = sample.reg 1 ∧ 0x01 = sample.reg 2 := by decide

/-- Below, equal and above. -/
theorem witness_CmpSetsFlagsOnly :
    (∃ t u : State, 0x01 = (sample.reg 2).toNat ∧ 0xFF = (sample.reg 1).toNat ∧
      t = { sample with carry := true, zero := false } ∧ exec (.sub 2 1) sample = .next u) ∧
    (∃ t : State, 0xFF = (sample.reg 1).toNat ∧
      t = { sample with carry := false, zero := true }) ∧
    (∃ t : State, t = { sample with carry := decide (0xFF < 0x01), zero := false }) :=
  ⟨⟨_, _, by decide, by decide, rfl, rfl⟩, ⟨_, by decide, rfl⟩, ⟨_, rfl⟩⟩

theorem witness_CallThenRetReturns :
    ∃ t : State, exec (.call 0x0100) { sample with sp := 0x0000, pc := 0xFFFF } = .next t ∧
      t.sp = 0xFFFE := ⟨_, rfl, by decide⟩

theorem witness_Push16LayoutAndInverse :
    Config.standard.push16Order = .highFirst ∧
    { Config.standard with push16Order := .lowFirst }.push16Order = .lowFirst ∧
    (0x0000 : Addr) ≠ sample.sp ∧ (0x0000 : Addr) ≠ sample.sp - 1 := by decide

theorem witness_StackRoundTrip :
    (List.replicate 65536 (0x5A : Byte)).length ≤ 65536 ∧ ([] : List Byte).length ≤ 65536 :=
  ⟨le_of_eq List.length_replicate, Nat.zero_le _⟩

theorem witness_PointerPairTransfers :
    (0xFF01 : Addr).toNat = (sample.reg 1).toNat * 256 + (sample.reg 2).toNat ∧
    (0x0000 : Addr).toNat = (sample.reg 4).toNat * 256 + (sample.reg 4).toNat := by decide

theorem witness_LoadReturnsLastStore :
    ptrAddr 1 2 sample = 0xFF01 ∧ (∃ t : State, exec (.st 3 0xFF01) sample = .next t) ∧
    (∃ t : State, exec (.std 3 1 2) sample = .next t) ∧ (0xFFFF : Addr) ≠ 0xFF01 :=
  ⟨by decide, ⟨_, rfl⟩, ⟨_, rfl⟩, by decide⟩

/-- A core with port 10 bound both ways. -/
def bound : State := { sample with ports := ⟨[0x10], [0x10]⟩ }

theorem witness_InReadsPort :
    (0x11 : Byte) ∉ bound.ports.readBound ∧ (0x10 : Byte) ∈ bound.ports.readBound := by decide

/-- Both branches of what OUT calls. -/
theorem witness_OutWritesPort :
    (0x10 : Byte) ∈ bound.ports.writeBound ∧ (0x11 : Byte) ∉ bound.ports.writeBound := by decide

theorem witness_UnboundPortsAreInert :
    (0x11 : Byte) ∉ bound.ports.readBound ∧ (0x11 : Byte) ∉ bound.ports.writeBound := by decide

theorem witness_BindingInstallsCallbacks :
    ∃ t : State, t = (handle (.bind 0x10 true false) State.reset).2 ∧
      t.ports = ⟨[0x10], []⟩ := ⟨_, rfl, by decide⟩

theorem witness_OnlyTheDestinationRegisterChanges :
    ∃ t : State, exec (.add 1 2) sample = .next t ∧ destination (.add 1 2) ≠ some 3 ∧
      destination (.st 1 0x0000) ≠ some 1 := ⟨_, rfl, by decide, by decide⟩

theorem witness_FlagsChangeOnlyByTheirWriters :
    ∃ t : State, exec (.pop 1) sample = .next t ∧ writesCarryZero (.pop 1) = false := ⟨_, rfl, rfl⟩

/-- The bytes around the two of a CALL at `sp` = 0000. -/
theorem witness_OnlyTheStoredBytesChange :
    ∃ t : State, exec (.call 0x0100) { sample with sp := 0x0000 } = .next t ∧
      (0x0001 : Addr) ∉ storedAddrs (.call 0x0100) { sample with sp := 0x0000 } ∧
      (0xFFFE : Addr) ∉ storedAddrs (.call 0x0100) { sample with sp := 0x0000 } ∧
      (0x0000 : Addr) ∈ storedAddrs (.call 0x0100) { sample with sp := 0x0000 } :=
  ⟨_, rfl, by decide, by decide, by decide⟩

theorem witness_PcAndSpMoveOnlyByTheirWriters :
    ∃ t u : State, exec (.brnc 0x0100) sample = .next t ∧ fallsThrough (.brnc 0x0100) sample = true ∧
      exec (.brc 0x0100) sample = .next u ∧ fallsThrough (.brc 0x0100) sample = false :=
  ⟨_, _, rfl, rfl, rfl, rfl⟩

theorem witness_RestOfTheStateIsKept :
    (∃ t : State, exec .stop sample = .next t) ∧ (∃ t : State, exec .sleep sample = .next t) ∧
    (∃ t : State, exec .ret sample = .next t) ∧ Instr.ret.mnemonic ≠ .brk ∧
    Instr.ret.mnemonic ≠ .inp ∧ Instr.ret.mnemonic ≠ .out :=
  ⟨⟨_, rfl⟩, ⟨_, rfl⟩, ⟨_, rfl⟩, by decide, by decide, by decide⟩

theorem witness_InstructionsIgnoreWhatTheyDoNotRead :
    ∃ t : State, exec (.add 1 2) sample = .next t ∧ (Instr.add 1 2).mnemonic ≠ .lpm ∧
      (Instr.add 1 2).mnemonic ≠ .lpmd ∧
      (Instr.add 1 2).mnemonic ∉ [.ld, .ldd, .st, .std, .push, .pop, .call, .ret, .reti] :=
  ⟨_, rfl, by decide, by decide, by decide⟩

theorem witness_StepRunsTheDecodedInstruction :
    sample.status = .running ∧ sample.dueLine = none ∧
    decodeAt sample.config.opcodeMap sample.pmem sample.pc = .ok .nop 1 := by decide

theorem witness_StoppedAndSleepingStepsDoNothing :
    { sample with status := .stopped, ie := true, pend := ⟨true, true, true, true⟩ }.status =
      .stopped ∧
    { sample with status := .sleeping }.status = .sleeping ∧
    { sample with status := .sleeping }.dueLine = none := by decide

/-- Each line in turn is due. -/
theorem witness_DispatchTakesTheHighestPendingLine :
    { sample with ie := true, pend := ⟨true, true, true, true⟩ }.dueLine = some .vblank ∧
    { sample with ie := true, pend := ⟨false, true, true, true⟩ }.dueLine = some .button ∧
    { sample with ie := true, pend := ⟨false, false, true, true⟩ }.dueLine = some .keyboard ∧
    { sample with ie := true, pend := ⟨false, false, false, true⟩ }.dueLine = some .serial := by
  decide

/-- Sleeping with the button pending, under both values of `DISPATCH_THEN_FETCH`. -/
def due (both : Bool) : State :=
  { sample with
    status := .sleeping, ie := true, pend := ⟨false, true, false, false⟩
    config := { Config.standard with dispatchThenFetch := both } }

theorem witness_DispatchingStepRunsTheHandler :
    (due false).status ≠ .stopped ∧ (due false).dueLine = some .button ∧
    (∃ d : State, d = dispatch .button { due true with events := [], portCalls := [] }) ∧
    (due false).config.dispatchThenFetch = false ∧ (due true).config.dispatchThenFetch = true ∧
    (due true).dueLine = some .button ∧
    decodeAt (due true).config.opcodeMap (due true).pmem (vector (due true).config .button) =
      .ok .nop 1 := ⟨by decide, by decide, ⟨_, rfl⟩, by decide⟩

/-- FF at FFFF with nothing due, and FF at the button's vector with the button due. -/
theorem witness_IllegalOpcodeConsumesOneByte :
    OpcodeMap.standard.inverse 0xFF = none ∧
    (startAt 0xFFFF [0xFF]).status = .running ∧ (startAt 0xFFFF [0xFF]).dueLine = none ∧
    (startAt 0xFFFF [0xFF]).readProgram 0xFFFF = 0xFF ∧
    { due true with pmem := [(0x0020, 0xFF)] }.dueLine = some .button ∧
    { due true with pmem := [(0x0020, 0xFF)] }.readProgram 0x0020 = 0xFF := by decide

theorem witness_StatusChangesOnlyAsTheTableSays :
    (∃ t : State, step (startAt 0x0000 [0x01]) = .next t ∧ t.status = .stopped) ∧
    (∃ t : State, step (startAt 0x0000 [0x02]) = .next t ∧ t.status = .sleeping) ∧
    (∃ t : State, step { sample with status := .stopped } = .next t) ∧
    (∃ t : State, step { sample with status := .sleeping } = .next t) ∧
    { sample with status := .sleeping }.dueLine = none :=
  ⟨⟨_, rfl, by decide⟩, ⟨_, rfl, by decide⟩, ⟨_, rfl⟩, ⟨_, rfl⟩, by decide⟩

theorem witness_OneLineIsClearedExactlyByItsDispatch :
    ∃ t : State, step (due true) = .next t ∧ (due true).pend.get .button = true ∧
      (due true).dueLine = some .button := ⟨_, rfl, by decide, by decide⟩

/-- Two NOPs with every line pending. -/
theorem witness_NoInterruptWithoutEiOrReti :
    ∃ t : State, { sample with pend := ⟨true, true, true, true⟩ }.ie = false ∧
      steps 2 { sample with pend := ⟨true, true, true, true⟩ } = .next t ∧
      ∀ (k : Nat) (u : State), k < 2 →
        steps k { sample with pend := ⟨true, true, true, true⟩ } = .next u → ∀ len : Nat,
          decodeAt u.config.opcodeMap u.pmem u.pc ≠ .ok .ei len ∧
          decodeAt u.config.opcodeMap u.pmem u.pc ≠ .ok .reti len := by
  refine ⟨_, rfl, rfl, fun k u below reached len => ?_⟩
  have nop : decodeAt u.config.opcodeMap u.pmem u.pc = .ok .nop 1 := by
    match k, below with
    | 0, _ => cases reached; decide
    | 1, _ => cases reached; decide
  simp [nop]

theorem witness_StoppedIsLeftOnlyByReset :
    ∃ t : State, { sample with status := .stopped }.status = .stopped ∧
      HostRequest.reset ∉ [HostRequest.step, .irqVblank, .steps 3, .bind 0x10 true true] ∧
      t = (handleAll [.step, .irqVblank, .steps 3, .bind 0x10 true true]
        { sample with status := .stopped }).2 ∧ t.pend.vblank = true ∧
      ∀ bytes : List Byte,
        HostRequest.load bytes ∉ [HostRequest.step, .irqVblank, .steps 3, .bind 0x10 true true] :=
  ⟨_, rfl, by decide, rfl, by decide, by simp⟩

theorem witness_SleepingWithoutIeIsStuck :
    ∃ t : State, { sample with status := .sleeping }.status = .sleeping ∧
      { sample with status := .sleeping }.ie = false ∧
      HostRequest.reset ∉ [HostRequest.irqVblank, .step, .load [0x01], .step] ∧
      t = (handleAll [.irqVblank, .step, .load [0x01], .step]
        { sample with status := .sleeping }).2 := ⟨_, rfl, rfl, by decide, rfl⟩

/-- The three ends of a state, and a due line in a state that is at no end. -/
theorem witness_EndedRunsDoNotMove :
    { sample with status := .stopped }.runEnd = some .final ∧
    { sample with status := .sleeping }.runEnd = some .stuck ∧
    { sample with status := .sleeping, ie := true }.runEnd = some .waiting ∧
    (due true).runEnd = none ∧ (due true).dueLine = some .button ∧ sample.runEnd = none := by
  decide

/-- `41 00 07 FF`: the first step completes and the second faults. -/
theorem witness_StepsEndAtTheFirstFault :
    ∃ (t : State) (f : Fault), steps 1 (startAt 0x0000 [0x41, 0x00, 0x07, 0xFF]) = .next t ∧
      step t = .fault f ∧ steps 5 (startAt 0x0000 [0x41, 0x00, 0x07, 0xFF]) = .fault f :=
  ⟨_, _, rfl, rfl, rfl⟩

theorem witness_LoadCopiesTheProgram :
    (List.replicate 65536 (0x5A : Byte)).length ≤ 65536 ∧
    65536 < (List.replicate 65537 (0x5A : Byte)).length :=
  ⟨le_of_eq List.length_replicate, by rw [List.length_replicate]; decide⟩

theorem witness_ResetIsWellFormed : sample.wf = true := by decide

theorem witness_StepKeepsWellFormed :
    sample.wf = true ∧ (∃ t : State, step sample = .next t) ∧
    (startAt 0x0000 [0xFF]).wf = true ∧
    ∃ (v : Byte) (left : State), step (startAt 0x0000 [0xFF]) = .fault (.illegalOpcode v left) :=
  ⟨by decide, ⟨_, rfl⟩, by decide, ⟨_, _, rfl⟩⟩

theorem witness_HostRequestsKeepWellFormed :
    ∃ t : State, sample.wf = true ∧
      t = (handleAll [.bind 0x10 true true, .irqSerial, .step, .reset] sample).2 ∧
      ∀ bytes : List Byte,
        HostRequest.load bytes ∉ [HostRequest.bind 0x10 true true, .irqSerial, .step, .reset] :=
  ⟨_, by decide, rfl, by simp⟩

theorem witness_DecodeOfEncodeIsTheInstruction :
    OpcodeMap.standard.wf = true ∧ { OpcodeMap.standard with out := 0xFF }.wf = true := by decide

/-- INC R3 with its ignored nibble at F, and with a byte after it. -/
theorem witness_EncodeOfDecodeIsTheBytes :
    decodeBytes OpcodeMap.standard [0x14, 0xF3, 0xAA] = .ok (.inc 3) 2 := by decide

theorem witness_LengthIsKnownFromTheOpcode :
    decodeBytes OpcodeMap.standard [0x42, 0x01, 0x00, 0xFF] = .ok (.ld 1 0x00FF) 4 ∧
    decodeBytes OpcodeMap.standard [0x42, 0x0F, 0x80, 0x00, 0x00] = .ok (.ld 15 0x8000) 4 := by
  decide

/-- Bounds 65536 and 2, a walk of two records, and one that fails at 0001 after one record. -/
theorem witness_DisassemblyIsOneLinearWalk :
    disasmBound State.reset ≤ 65536 ∧
    disasmBound { startAt 0x0000 [0x00, 0x14] with loadedLen := 2, config := loadedConfig } ≤ 65536 ∧
    0 < disasmBound { startAt 0x0000 [0x00, 0x14] with loadedLen := 2, config := loadedConfig } ∧
    disassemble { startAt 0x0000 [0x00, 0x14] with loadedLen := 2, config := loadedConfig } =
      .records [⟨0x0000, [0x00], "NOP"⟩, ⟨0x0001, [0x14, 0x00], "INC R0"⟩] ∧
    disassemble { startAt 0x0000 [0x00, 0xAA] with loadedLen := 2, config := loadedConfig } =
      .illegalOpcode 0xAA := by decide

theorem witness_walkReaches :
    walkReaches { startAt 0x0000 [0x00, 0xAA] with loadedLen := 2, config := loadedConfig } 0
      [⟨0x0000, [0x00], "NOP"⟩] 1 := ⟨by decide, .nop, 1, by decide, by decide, rfl⟩

/-- The bound `LoadedLength`; the disassembly succeeds. -/
theorem witness_DisassemblyReproducesTheInstruction :
    ∃ (t : State) (rs : List DisasmRecord), { sample with config := loadedConfig }.config.wf = true ∧
      loadProgram (encode loadedConfig.opcodeMap (.ldd 4 2 3)) { sample with config := loadedConfig } =
        .next t ∧ disassemble t = .records rs ∧ rs.length = 1 ∧
      loadedConfig.disasmBound = .loadedLength :=
  ⟨_, [⟨0x0000, [0x45, 0x04, 0x23], "LDD R4, R2:R3"⟩], by decide, rfl, by decide, rfl, rfl⟩

theorem witness_ZeroMemoryDisassemblesToNops :
    State.reset.config.wf = true ∧ State.reset.config.disasmBound = .full ∧
    ∀ a : Addr, State.reset.readProgram a = 0x00 := ⟨by decide, rfl, fun _ => rfl⟩

end Sys2Proof.Tests
end

section
/-! SUPPORT. The family 10_state.md: what an instruction, a step and a reset leave unchanged of each
piece of the state, and that they keep it well formed. -/

namespace Sys2Proof.Machine

/-! ### The shared operations, in terms of the setters -/

@[simp] theorem writeAlu_eq_setters (d : RegIdx) (out : Alu) (s : State) :
    writeAlu d out s = (s.setReg d out.result).setCarryZero out.carry out.zero := rfl

@[simp] theorem writeAluFlags_eq_setCarryZero (out : Alu) (s : State) :
    writeAluFlags out s = s.setCarryZero out.carry out.zero := rfl

/-- A branch taken if `c` writes `pc` and nothing else, taken or not. -/
@[simp] theorem ite_setPc_self (c : Prop) [Decidable c] (a : Addr) (s : State) :
    (if c then s.setPc a else s) = s.setPc (if c then a else s.pc) := by
  split <;> rfl

/-- A branch taken if not `c` writes `pc` and nothing else, taken or not. -/
@[simp] theorem ite_self_setPc (c : Prop) [Decidable c] (a : Addr) (s : State) :
    (if c then s else s.setPc a) = s.setPc (if c then s.pc else a) := by
  split <;> rfl

/-! ### Registers (10_state.md R22) -/

theorem reg_eq_of_regs_eq {s t : State} (h : t.regs = s.regs) (r : RegIdx) : t.reg r = s.reg r := by
  rw [State.reg, h, State.reg]

@[simp] theorem push16_reg (v : Addr) (s : State) (r : RegIdx) : (push16 v s).reg r = s.reg r :=
  reg_eq_of_regs_eq (push16_regs v s) r

@[simp] theorem portRead_reg (p : Byte) (s : State) (r : RegIdx) :
    (portRead p s).2.reg r = s.reg r := reg_eq_of_regs_eq (portRead_regs p s) r

@[simp] theorem portWrite_reg (p v : Byte) (s : State) (r : RegIdx) :
    (portWrite p v s).reg r = s.reg r := reg_eq_of_regs_eq (portWrite_regs p v s) r

theorem execState_reg_of_not_destination {i : Instr} {r : RegIdx} (h : destination i ≠ some r)
    (s : State) : (execState i s).reg r = s.reg r := by
  have other {d : RegIdx} (hd : destination i = some d) : r ≠ d := fun e => h (e ▸ hd)
  cases i with
  | add | addc | sub | subc | inc | dec | and | or | xor | mov | ldi | ld | lpm | ldd | lpmd | pop
  | inp => simp [setReg_reg_other _ _ _ _ (other rfl)]
  | _ => simp

/-- Settles O28: the case split over the instructions is `execState_reg_of_not_destination`. -/
theorem onlyTheDestinationRegisterChanges : Obligations.OnlyTheDestinationRegisterChanges := by
  intro i s t h r hr
  rw [execState_of_next h]
  exact execState_reg_of_not_destination hr s

/-! ### Flags (10_state.md R29 to R31) -/

theorem execState_carry_zero_of_not_writer {i : Instr} (h : writesCarryZero i = false) (s : State) :
    (execState i s).carry = s.carry ∧ (execState i s).zero = s.zero := by
  cases i with
  | add | addc | sub | subc | inc | dec | and | or | xor | cmp | cmpi => cases h
  | _ => simp

theorem execState_ie (i : Instr) (s : State) :
    (execState i s).ie =
      if i = .ei ∨ i = .reti then true else if i = .di then false else s.ie := by
  cases i with
  | ei | di => rfl
  | reti => rw [execState_reti]; rfl
  | _ => simp

/-- Settles O29: `C` and `Z` by `execState_carry_zero_of_not_writer`, `IE` by `execState_ie`. -/
theorem flagsChangeOnlyByTheirWriters : Obligations.FlagsChangeOnlyByTheirWriters := by
  intro i s t h
  rw [execState_of_next h]
  exact ⟨fun hw => execState_carry_zero_of_not_writer hw s, execState_ie i s⟩

/-! ### `sp` and `pc` (10_state.md R27, R33) -/

theorem execState_sp (i : Instr) (s : State) : (execState i s).sp = spAfter i s := by
  cases i with
  | push | pop => rfl
  | _ => simp [spAfter]

theorem execState_pc_of_fallsThrough {i : Instr} {s : State} (h : fallsThrough i s = true) :
    (execState i s).pc = s.pc := by
  cases i with
  | jmp | call | ret | reti => cases h
  | brc | brnc | brz | brnz =>
    simp only [fallsThrough, Bool.not_eq_true'] at h
    simp [h]
  | _ => simp

/-- Settles O31: `sp` by `execState_sp`, `pc` by `execState_pc_of_fallsThrough`. -/
theorem pcAndSpMoveOnlyByTheirWriters : Obligations.PcAndSpMoveOnlyByTheirWriters := by
  intro i s t h
  rw [execState_of_next h]
  exact ⟨execState_sp i s, execState_pc_of_fallsThrough⟩

/-! ### Status, events and draws (10_state.md R38; 40_execution_cycle.md R127) -/

theorem execState_status (i : Instr) (s : State) :
    (execState i s).status =
      if i = .stop then .stopped else if i = .sleep then .sleeping else s.status := by
  cases i with
  | stop | sleep => rfl
  | _ => simp

theorem execState_events_of_no_event {i : Instr} (hbrk : i.mnemonic ≠ .brk)
    (hinp : i.mnemonic ≠ .inp) (hout : i.mnemonic ≠ .out) (s : State) :
    (execState i s).events = s.events := by
  cases i with
  | brk => exact absurd rfl hbrk
  | inp => exact absurd rfl hinp
  | out => exact absurd rfl hout
  | _ => simp

theorem execState_draws_of_not_inp {i : Instr} (hinp : i.mnemonic ≠ .inp) (s : State) :
    (execState i s).draws = s.draws := by
  cases i with
  | inp => exact absurd rfl hinp
  | _ => simp

theorem execState_portCalls_of_no_port {i : Instr} (hinp : i.mnemonic ≠ .inp)
    (hout : i.mnemonic ≠ .out) (s : State) : (execState i s).portCalls = s.portCalls := by
  cases i with
  | inp => exact absurd rfl hinp
  | out => exact absurd rfl hout
  | _ => simp

/-- Settles O32: the pieces no instruction writes by `execState_keeps`, each other piece by its own
frame. -/
theorem restOfTheStateIsKept : Obligations.RestOfTheStateIsKept := by
  intro i s t h
  rw [execState_of_next h]
  obtain ⟨-, pend, ports, loadedLen, config⟩ := execState_keeps i s
  exact ⟨pend, ports, loadedLen, config, execState_status i s,
    fun hbrk hinp hout => execState_events_of_no_event hbrk hinp hout s,
    fun hinp => execState_draws_of_not_inp hinp s,
    fun hinp hout => execState_portCalls_of_no_port hinp hout s⟩

/-! ### What an instruction does not read (10_state.md R44, 20_memory.md R63)

A change of a piece that an instruction neither reads nor writes commutes with it. For most
instructions the two orders are the same term; where a shared operation splits on the state (the
push order, a flag, a port's binding), it is first written as one record update. -/

theorem execState_with_pend_pmem {i : Instr} {s : State} {m : Memory} (p : Pending)
    (unread : i.mnemonic = .lpm ∨ i.mnemonic = .lpmd → m = s.pmem) :
    execState i { s with pend := p, pmem := m } =
      { execState i s with pend := p, pmem := m } := by
  cases i with
  | lpm => rw [unread (.inl rfl)]; rfl
  | lpmd => rw [unread (.inr rfl)]; rfl
  | call | ret | reti =>
    simp only [execState_call, execState_ret, execState_reti, push16_eq, pop16_eq]; rfl
  | brc | brnc | brz | brnz =>
    simp only [execState_brc, execState_brnc, execState_brz, execState_brnz, ite_setPc_self,
      ite_self_setPc]; rfl
  | inp | out => simp only [execState_inp, execState_out, portRead_eq, portWrite_eq]; rfl
  | _ => rfl

theorem execState_with_pend (i : Instr) (s : State) (p : Pending) :
    execState i { s with pend := p } = { execState i s with pend := p } := by
  obtain ⟨pmem, -⟩ := execState_keeps i s
  exact (execState_with_pend_pmem p fun _ => rfl).trans (by rw [← pmem])

theorem execState_with_pmem {i : Instr} (hlpm : i.mnemonic ≠ .lpm) (hlpmd : i.mnemonic ≠ .lpmd)
    (s : State) (m : Memory) :
    execState i { s with pmem := m } = { execState i s with pmem := m } := by
  obtain ⟨-, pend, -⟩ := execState_keeps i s
  exact (execState_with_pend_pmem s.pend fun h => (h.elim hlpm hlpmd).elim).trans (by rw [← pend])

theorem execState_with_dmem {i : Instr}
    (unread : i.mnemonic ∉ [.ld, .ldd, .st, .std, .push, .pop, .call, .ret, .reti])
    (s : State) (m : Memory) :
    execState i { s with dmem := m } = { execState i s with dmem := m } := by
  cases i with
  | ld | ldd | st | std | push | pop | call | ret | reti => simp [Instr.mnemonic] at unread
  | brc | brnc | brz | brnz =>
    simp only [execState_brc, execState_brnc, execState_brz, execState_brnz, ite_setPc_self,
      ite_self_setPc]; rfl
  | inp | out => simp only [execState_inp, execState_out, portRead_eq, portWrite_eq]; rfl
  | _ => rfl

/-- Settles O33: each of the three changes commutes with the instruction. -/
theorem instructionsIgnoreWhatTheyDoNotRead : Obligations.InstructionsIgnoreWhatTheyDoNotRead := by
  intro i s t p m h
  rw [execState_of_next h]
  simp only [exec_eq, Host.Outcome.next.injEq]
  exact ⟨execState_with_pend i s p, fun hlpm hlpmd => execState_with_pmem hlpm hlpmd s m,
    fun hdata => execState_with_dmem hdata s m⟩

/-! ### Pending lines over a step (10_state.md R35, 60_exceptions.md R242) -/

theorem fetchState_of_due {s : State} {l : Line} (h : s.dueLine = some l) :
    fetchState s = dispatch l s.clearEvents := by
  simp only [fetchState, h]

theorem fetchState_of_none {s : State} (h : s.dueLine = none) : fetchState s = s.clearEvents := by
  simp only [fetchState, h]

/-- A dispatch clears its own line and no other. -/
theorem fetchState_pend_get (s : State) (l : Line) :
    (fetchState s).pend.get l = true ↔ s.pend.get l = true ∧ s.dueLine ≠ some l := by
  cases due : s.dueLine with
  | none => simp [fetchState_of_none due]
  | some k =>
    by_cases h : l = k
    · simp [fetchState_of_due due, dispatch_eq, h]
    · simp [fetchState_of_due due, dispatch_eq, h, Ne.symm h]

/-- The pending lines after a completed step are those before it if it is idle, else those that the
dispatch left. -/
theorem step_pend {s t : State} (h : step s = .next t) :
    (t.pend = s.pend ∧ (s.status = .stopped ∨ s.dueLine = none)) ∨
    (t.pend = (fetchState s).pend ∧ s.status ≠ .stopped) := by
  rcases step_outcomes s with ⟨idle, still⟩ | ⟨l, only, awake, due, -⟩ | ⟨-, -, fault⟩ |
    ⟨i, len, awake, -, -, ran⟩
  · cases idle.symm.trans h
    exact .inl ⟨rfl, still.imp id And.right⟩
  · cases only.symm.trans h
    exact .inr ⟨by rw [fetchState_of_due due], awake⟩
  · cases fault.symm.trans h
  · cases ran.symm.trans h
    obtain ⟨-, pend, -⟩ :=
      execState_keeps i ((fetchState s).setPc (fetchAddr s + BitVec.ofNat 16 len))
    exact .inr ⟨pend, awake⟩

/-- Settles O41: `step_pend` gives the lines left, `fetchState_pend_get` what a dispatch clears. -/
theorem oneLineIsClearedExactlyByItsDispatch :
    Obligations.OneLineIsClearedExactlyByItsDispatch := by
  intro s t l h
  rcases step_pend h with ⟨pend, still⟩ | ⟨pend, awake⟩
  · have notDispatched : s.status = .stopped ∨ s.dueLine ≠ some l :=
      still.imp id fun noneDue => by simp [noneDue]
    simp [pend, notDispatched]
  · simp [pend, fetchState_pend_get, awake]

/-! ### Well-formedness (10_state.md R47) -/

/-- A state whose data memory is canonical and that differs from a well-formed one in no other piece
of the invariant is well formed. -/
theorem State.wf_of_keeps {s t : State} (h : s.wf = true)
    (dmem : s.dmem.wf = true → t.dmem.wf = true)
    (pmem : t.pmem = s.pmem) (ports : t.ports = s.ports) (loadedLen : t.loadedLen = s.loadedLen)
    (config : t.config = s.config) : t.wf = true := by
  simp only [State.wf, Bool.and_eq_true, pmem, ports, loadedLen, config] at h ⊢
  obtain ⟨⟨⟨⟨hp, hd⟩, hports⟩, hlen⟩, hconfig⟩ := h
  exact ⟨⟨⟨⟨hp, dmem hd⟩, hports⟩, hlen⟩, hconfig⟩

theorem setPc_wf {s : State} (h : s.wf = true) (a : Addr) : (s.setPc a).wf = true := h

theorem clearEvents_wf {s : State} (h : s.wf = true) : s.clearEvents.wf = true := h

theorem fetchState_wf {s : State} (h : s.wf = true) : (fetchState s).wf = true := by
  obtain ⟨config, pmem, -, -, ports, loadedLen⟩ := fetchState_keeps s
  exact State.wf_of_keeps h fetchState_dmem_wf pmem ports loadedLen config

theorem execState_wf (i : Instr) {s : State} (h : s.wf = true) : (execState i s).wf = true := by
  obtain ⟨pmem, -, ports, loadedLen, config⟩ := execState_keeps i s
  exact State.wf_of_keeps h (execState_dmem_wf i) pmem ports loadedLen config

theorem resetCore_wf {s : State} (h : s.wf = true) : (resetCore s).wf = true :=
  State.wf_of_keeps h (fun _ => Memory.wf_nil) rfl rfl rfl rfl

/-- Settles O49: the reset state by evaluation, the rest by `resetCore_wf` and the fields that
`resetCore` does not set. -/
theorem resetIsWellFormed : Obligations.ResetIsWellFormed :=
  ⟨by decide, fun _ => ⟨resetCore_wf, rfl, rfl, rfl, rfl⟩⟩

/-- Settles O50: in each of the four outcomes of a step, the state left comes from the one before it
by operations that keep the invariant. -/
theorem stepKeepsWellFormed : Obligations.StepKeepsWellFormed := by
  intro s hs
  rcases step_outcomes s with ⟨idle, -⟩ | ⟨l, only, -, due, -⟩ | ⟨-, -, fault⟩ |
    ⟨i, len, -, -, -, ran⟩
  · simpa [idle] using clearEvents_wf hs
  · simpa [only, ← fetchState_of_due due] using fetchState_wf hs
  · simpa [fault] using setPc_wf (fetchState_wf hs) _
  · simpa [ran] using execState_wf i (setPc_wf (fetchState_wf hs) _)

end Sys2Proof.Machine
end

section
/-! SUPPORT. The family 20_memory.md: what a register, a data byte and the stack give back, which bytes
an instruction stores to, what an unbound port does, and what the host's requests keep. -/

namespace Sys2Proof.Machine

/-! ### Registers and data bytes (10_state.md R21, 20_memory.md R53) -/

/-- Settles O3: the read-after-write rules of a register and of a data byte; program memory is another
field. -/
theorem storageReadsBackItsLastWrite : Obligations.StorageReadsBackItsLastWrite :=
  ⟨setReg_reg, fun s a b v => ⟨readData_writeData s a b v, writeData_readProgram s a v b⟩⟩

/-! ### PUSH and POP (20_memory.md R58, R59; 46_stack_io.md R220, R221) -/

/-- An opcode byte with operand bytes that assemble to `i` is an encoding of `i` (30_encoding.md R91). -/
theorem encodesAs_of_assemble {i : Instr} {operands : List Byte}
    (count : operands.length = i.mnemonic.operandClass.operandBytes)
    (assembled : ∀ rest : List Byte, assemble i.mnemonic ((operands ++ rest).getD 0 0)
      ((operands ++ rest).getD 1 0) ((operands ++ rest).getD 2 0) = i) :
    encodesAs (fun m => m.byte i.mnemonic :: operands) i := by
  intro map hmap rest
  have enough : i.mnemonic.operandClass.operandBytes ≤ (operands ++ rest).length := by
    rw [List.length_append]; omega
  rw [List.cons_append, decodeBytes_assigned (OpcodeMap.inverse_byte hmap _) enough, assembled,
    Mnemonic.length, List.length_cons, count, Nat.add_comm]

theorem encodesAs_push (x r : RegIdx) :
    encodesAs (fun m => [m.byte .push, nibbles x r]) (.push r) :=
  encodesAs_of_assemble (i := .push r) (operands := [nibbles x r]) rfl fun _ =>
    congrArg Instr.push (lo4_nibbles x r)

theorem encodesAs_pop (x r : RegIdx) :
    encodesAs (fun m => [m.byte .pop, nibbles x r]) (.pop r) :=
  encodesAs_of_assemble (i := .pop r) (operands := [nibbles x r]) rfl fun _ =>
    congrArg Instr.pop (lo4_nibbles x r)

/-- Settles O19: the two stack primitives as record updates, the two encodings, and each instruction as
its primitive. -/
theorem pushAndPopMoveOneByte : Obligations.PushAndPopMoveOneByte :=
  ⟨fun v s => ⟨push8_eq v s, pop8_eq s⟩,
    fun x r s => ⟨⟨encodesAs_push x r, exec_eq (.push r) s⟩, ⟨encodesAs_pop x r, exec_eq (.pop r) s⟩⟩⟩

/-! ### A 16-bit push (20_memory.md R60, R61) -/

theorem pop16_sp (s : State) : (pop16 s).2.sp = s.sp + 2 := by rw [pop16_eq]

theorem pop16_push16_value (v : Addr) (s : State) : (pop16 (push16 v s)).1 = v :=
  pop16_value_of_pushed (push16_config v s) (push16_first v s) (push16_second v s) (push16_sp v s)

theorem pop16_push16_sp (v : Addr) (s : State) : (pop16 (push16 v s)).2.sp = s.sp := by
  rw [pop16_sp, push16_sp, BitVec.sub_add_cancel]

/-- Settles O17: each order of the bytes by `push16_first` and `push16_second`. -/
theorem push16LayoutAndInverse : Obligations.Push16LayoutAndInverse := by
  intro v s
  refine ⟨push16_sp v s, fun order => ?_, fun order => ?_, fun _ => push16_other v s,
    pop16_push16_value v s, pop16_push16_sp v s⟩
  · rw [push16_first, push16_second, order]; exact ⟨rfl, rfl⟩
  · rw [push16_first, push16_second, order]; exact ⟨rfl, rfl⟩

/-! ### Many byte pushes and pops (20_memory.md R62) -/

theorem push8_sp (v : Byte) (s : State) : (push8 v s).sp = s.sp - 1 := rfl

theorem push8_readData (v : Byte) (s : State) (a : Addr) :
    (push8 v s).readData a = if a = s.sp then v else s.readData a :=
  readData_writeData s s.sp a v

theorem pushAll_sp (vs : List Byte) (s : State) :
    (pushAll vs s).sp = s.sp - BitVec.ofNat 16 vs.length := by
  induction vs generalizing s with
  | nil => simp [pushAll]
  | cons v rest ih =>
    rw [pushAll, ih, push8_sp, List.length_cons, BitVec.ofNat_add]
    bv_omega

/-- Pushes that do not run all the way round keep the `k`-th byte above `sp`. -/
theorem pushAll_readData_above (vs : List Byte) (s : State) {k : Nat} (above : 0 < k)
    (room : k + vs.length ≤ 65536) :
    (pushAll vs s).readData (s.sp + BitVec.ofNat 16 k) =
      s.readData (s.sp + BitVec.ofNat 16 k) := by
  induction vs generalizing s k with
  | nil => rfl
  | cons v rest ih =>
    rw [List.length_cons] at room
    have fromNewSp : s.sp + BitVec.ofNat 16 k = (push8 v s).sp + BitVec.ofNat 16 (k + 1) := by
      rw [push8_sp, BitVec.ofNat_add]; bv_omega
    have notAtSp : s.sp + BitVec.ofNat 16 k ≠ s.sp := by bv_omega
    calc (pushAll (v :: rest) s).readData (s.sp + BitVec.ofNat 16 k)
        = (push8 v s).readData (s.sp + BitVec.ofNat 16 k) := by
          rw [pushAll, fromNewSp]; exact ih _ (by omega) (by omega)
      _ = s.readData (s.sp + BitVec.ofNat 16 k) := by rw [push8_readData, if_neg notAtSp]

/-- Pops move `sp` and write nothing. -/
theorem popMany_state (n : Nat) (s : State) :
    (popMany n s).2 = s.setSp (s.sp + BitVec.ofNat 16 n) := by
  induction n generalizing s with
  | zero => simp [popMany, State.setSp]
  | succ n ih =>
    have moved : s.sp + 1 + BitVec.ofNat 16 n = s.sp + BitVec.ofNat 16 (n + 1) := by
      rw [BitVec.ofNat_add]; bv_omega
    rw [popMany, ih, pop8_eq, ← moved]; rfl

/-- The last of the bytes popped is the one that stands `n + 1` above `sp`. -/
theorem popMany_succ_last (n : Nat) (s : State) :
    (popMany (n + 1) s).1 =
      (popMany n s).1 ++ [s.readData (s.sp + BitVec.ofNat 16 (n + 1))] := by
  induction n generalizing s with
  | zero => rfl
  | succ n ih =>
    have moved : s.sp + 1 + BitVec.ofNat 16 (n + 1) = s.sp + BitVec.ofNat 16 (n + 1 + 1) := by
      rw [BitVec.ofNat_add (x := n + 1)]; bv_omega
    calc (popMany (n + 1 + 1) s).1
        = (pop8 s).1 :: (popMany (n + 1) (pop8 s).2).1 := rfl
      _ = (popMany (n + 1) s).1 ++
            [s.readData (s.sp + 1 + BitVec.ofNat 16 (n + 1))] := by rw [ih]; rfl
      _ = (popMany (n + 1) s).1 ++ [s.readData (s.sp + BitVec.ofNat 16 (n + 1 + 1))] := by
          rw [moved]

/-- The byte pushed first stays where it was pushed, and is the last one popped. -/
theorem popMany_pushAll (vs : List Byte) (s : State) (fits : vs.length ≤ 65536) :
    (popMany vs.length (pushAll vs s)).1 = vs.reverse := by
  induction vs generalizing s with
  | nil => rfl
  | cons v rest ih =>
    rw [List.length_cons] at fits
    have lastAt : (pushAll rest (push8 v s)).sp + BitVec.ofNat 16 (rest.length + 1) =
        (push8 v s).sp + BitVec.ofNat 16 1 := by
      rw [pushAll_sp, BitVec.ofNat_add]; bv_omega
    have oldSp : (push8 v s).sp + BitVec.ofNat 16 1 = s.sp := BitVec.sub_add_cancel s.sp 1
    rw [List.length_cons, pushAll, popMany_succ_last, ih _ (by omega), lastAt,
      pushAll_readData_above _ _ Nat.one_pos (by omega), oldSp, push8_readData, if_pos rfl,
      List.reverse_cons]

/-- Settles O18: the bytes by `popMany_pushAll`, an induction on the bytes pushed; `sp` by what each run
of pushes and of pops adds to it. -/
theorem stackRoundTrip : Obligations.StackRoundTrip := by
  intro vs s fits
  refine ⟨popMany_pushAll vs s fits, ?_, pushAll_sp vs s, fun w => push16_sp w s⟩
  rw [popMany_state, setSp_sp, pushAll_sp, BitVec.sub_add_cancel]

/-! ### Loads after stores (20_memory.md R71) -/

/-- Settles O23: either store writes the one byte at `addr` and no register, so the pointer pair still
gives `addr`. -/
theorem loadReturnsLastStore : Obligations.LoadReturnsLastStore := by
  intro r q ph pl addr s t pair stored
  have left : t = s.writeData addr (s.reg r) := by
    rcases stored with st | std
    · exact execState_of_next st
    · rw [execState_of_next std, execState_std, pair]
  have pairKept : ptrAddr ph pl t = addr := by rw [left]; exact pair
  have loaded (a : Addr) : t.readData a = if a = addr then s.reg r else s.readData a := by
    rw [left, readData_writeData]
  refine ⟨⟨?_, ?_⟩, fun other ne => ?_⟩
  · rw [exec_eq, execState_ld, loaded, if_pos rfl]
  · rw [exec_eq, execState_ldd, pairKept, loaded, if_pos rfl]
  · rw [exec_eq, execState_ld, loaded, if_neg ne]

/-! ### The bytes an instruction stores to (20_memory.md R63) -/

theorem readData_eq_of_dmem_eq {s t : State} (h : t.dmem = s.dmem) (a : Addr) :
    t.readData a = s.readData a := by
  rw [State.readData, h, State.readData]

@[simp] theorem portRead_readData (p : Byte) (s : State) (a : Addr) :
    (portRead p s).2.readData a = s.readData a := readData_eq_of_dmem_eq (portRead_dmem p s) a

@[simp] theorem portWrite_readData (p v : Byte) (s : State) (a : Addr) :
    (portWrite p v s).readData a = s.readData a := readData_eq_of_dmem_eq (portWrite_dmem p v s) a

theorem execState_readData_of_not_stored {i : Instr} {s : State} {a : Addr}
    (h : a ∉ storedAddrs i s) : (execState i s).readData a = s.readData a := by
  cases i with
  | st | std | push =>
    have ne := mt List.mem_singleton.mpr h
    simp [readData_writeData, ne]
  | call addr =>
    obtain ⟨notFirst, notSecond⟩ : a ≠ s.sp ∧ a ≠ s.sp - 1 := by simpa [storedAddrs] using h
    simp [push16_other s.pc s notFirst notSecond]
  | _ => simp

/-- Settles O30: data memory by `execState_readData_of_not_stored`, program memory by
`execState_keeps`. -/
theorem onlyTheStoredBytesChange : Obligations.OnlyTheStoredBytesChange := by
  intro i s t h
  rw [execState_of_next h]
  obtain ⟨pmem, -⟩ := execState_keeps i s
  exact ⟨fun _ => execState_readData_of_not_stored, pmem⟩

/-! ### Unbound ports (20_memory.md R67) -/

theorem portRead_of_unbound {p : Byte} {s : State} (h : p ∉ s.ports.readBound) :
    portRead p s = (0x00, s) := if_neg h

theorem portWrite_of_unbound {p : Byte} {s : State} (h : p ∉ s.ports.writeBound) (v : Byte) :
    portWrite p v s = { s with events := s.events ++ [.portWr p v] } := by
  rw [portWrite_eq, if_neg h]

/-- Settles O26: the unbound branch of each port operation, and the empty port table of reset. -/
theorem unboundPortsAreInert : Obligations.UnboundPortsAreInert :=
  ⟨fun _ v _ => ⟨portRead_of_unbound, fun unbound => portWrite_of_unbound unbound v⟩,
    fun _ => ⟨List.not_mem_nil, List.not_mem_nil⟩⟩

/-! ### What a host request keeps (20_memory.md R51, R76; 40_execution_cycle.md R146) -/

theorem State.wf_iff (s : State) :
    s.wf = true ↔ s.pmem.wf = true ∧ s.dmem.wf = true ∧ s.ports.wf = true ∧
      s.loadedLen ≤ 65536 ∧ s.config.wf = true := by
  simp only [State.wf, Bool.and_eq_true, decide_eq_true_eq, and_assoc]

theorem PortTable.wf_iff (t : PortTable) :
    t.wf = true ↔ t.readBound.Pairwise (· < ·) ∧ t.writeBound.Pairwise (· < ·) := by
  simp only [PortTable.wf, Bool.and_eq_true, decide_eq_true_eq]

theorem bindPort_wf (p : Byte) (read write : Bool) {s : State} (h : s.wf = true) :
    (bindPort p read write s).wf = true := by
  rw [State.wf_iff] at h ⊢
  obtain ⟨pmem, dmem, ports, loadedLen, config⟩ := h
  refine ⟨pmem, dmem, ?_, loadedLen, config⟩
  rw [PortTable.wf_iff] at ports ⊢
  obtain ⟨reads, writes⟩ := ports
  constructor
  · cases read with
    | true => exact insertPort_pairwise p reads
    | false => exact reads
  · cases write with
    | true => exact insertPort_pairwise p writes
    | false => exact writes

theorem stateAfter_load_wf (bytes : List Byte) {s : State} (h : s.wf = true) :
    (stateAfter s (loadProgram bytes s)).wf = true := by
  rw [stateAfter_load]
  split
  case isTrue fits =>
    rw [State.wf_iff] at h ⊢
    obtain ⟨pmem, dmem, ports, -, config⟩ := h
    exact ⟨Memory.wf_writeBytes bytes 0x0000 pmem, dmem, ports, fits, config⟩
  case isFalse => exact h

theorem stateAfter_load_config (bytes : List Byte) (s : State) :
    (stateAfter s (loadProgram bytes s)).config = s.config := by
  rw [stateAfter_load]
  split <;> rfl

theorem stateAfter_step_wf {s : State} (h : s.wf = true) : (stateAfter s (step s)).wf = true := by
  obtain ⟨ofNext, ofIllegal⟩ := stepKeepsWellFormed s h
  cases outcome : step s with
  | next t => exact ofNext t outcome
  | fault f =>
    cases f with
    | illegalOpcode v left => exact ofIllegal v left outcome
    | programTooLarge => exact h
  | refused r => exact h

/-- A step, also one that faults, writes neither a parameter nor program memory. -/
theorem stateAfter_step_keeps (s : State) :
    (stateAfter s (step s)).config = s.config ∧ (stateAfter s (step s)).pmem = s.pmem := by
  obtain ⟨config, pmem, -⟩ := fetchState_keeps s
  rcases step_outcomes s with ⟨idle, -⟩ | ⟨l, only, -, due, -⟩ | ⟨-, -, fault⟩ |
    ⟨i, len, -, -, -, ran⟩
  · rw [idle]; exact ⟨rfl, rfl⟩
  · rw [only, ← fetchState_of_due due]; exact ⟨config, pmem⟩
  · rw [fault]; exact ⟨config, pmem⟩
  · obtain ⟨pmemRan, -, -, -, configRan⟩ :=
      execState_keeps i ((fetchState s).setPc (fetchAddr s + BitVec.ofNat 16 len))
    rw [ran]; exact ⟨configRan.trans config, pmemRan.trans pmem⟩

theorem stateAfter_steps_keeps (n : Nat) (s : State) :
    (stateAfter s (steps n s)).config = s.config ∧ (stateAfter s (steps n s)).pmem = s.pmem :=
  steps_keep (P := fun t => t.config = s.config ∧ t.pmem = s.pmem)
    (fun u ⟨config, pmem⟩ =>
      (stateAfter_step_keeps u).imp (fun c => c.trans config) (fun m => m.trans pmem))
    n ⟨rfl, rfl⟩

theorem handle_wf (request : HostRequest) {s : State} (h : s.wf = true) :
    (handle request s).2.wf = true := by
  cases request with
  | step => exact stateAfter_step_wf h
  | steps n => exact steps_keep (P := fun t => t.wf = true) (fun _ => stateAfter_step_wf) n h
  | reset => exact resetCore_wf h
  | load bytes => exact stateAfter_load_wf bytes h
  | bind port read write => exact bindPort_wf port read write h
  | irqVblank | irqButton | irqKeyboard | irqSerial | disassemble | readState => exact h

theorem handle_config (request : HostRequest) (s : State) :
    (handle request s).2.config = s.config := by
  cases request with
  | step => exact (stateAfter_step_keeps s).1
  | steps n => exact (stateAfter_steps_keeps n s).1
  | load bytes => exact stateAfter_load_config bytes s
  | reset | bind | irqVblank | irqButton | irqKeyboard | irqSerial | disassemble | readState => rfl

theorem handle_pmem_of_not_load {request : HostRequest}
    (h : ∀ bytes : List Byte, request ≠ .load bytes) (s : State) :
    (handle request s).2.pmem = s.pmem := by
  cases request with
  | step => exact (stateAfter_step_keeps s).2
  | steps n => exact (stateAfter_steps_keeps n s).2
  | load bytes => exact absurd rfl (h bytes)
  | reset | bind | irqVblank | irqButton | irqKeyboard | irqSerial | disassemble | readState => rfl

/-- Settles O51: each request keeps the invariant, the parameters and, unless it is a load, program
memory; `handleAll_keep` carries each of the three over the run. -/
theorem hostRequestsKeepWellFormed : Obligations.HostRequestsKeepWellFormed := by
  intro requests s t hs ht
  rw [ht]
  refine ⟨?_, ?_, fun noLoad => ?_⟩
  · exact handleAll_keep (P := fun u => u.wf = true) (fun request _ _ => handle_wf request) hs
  · exact handleAll_keep (P := fun u => u.config = s.config)
      (fun request _ u hu => (handle_config request u).trans hu) rfl
  · refine handleAll_keep (P := fun u => u.pmem = s.pmem) (fun request mem u hu => ?_) rfl
    have notLoad (bytes : List Byte) : request ≠ .load bytes := fun e => noLoad bytes (e ▸ mem)
    exact (handle_pmem_of_not_load notLoad u).trans hu

end Sys2Proof.Machine
end

section
/-! SUPPORT. The family 30_encoding.md: decoding and encoding are each other's inverse up to the ignored
nibbles, and a disassembly is one linear walk of the decoder over program memory. -/

namespace Sys2Proof.Machine

/-! ### An instruction's own operand bytes (30_encoding.md R82, R83, R93) -/

open Laws in
theorem operandBytes_length (i : Instr) :
    i.operandBytes.length = i.mnemonic.operandClass.operandBytes :=
  i.casesOn OperandCount.nop OperandCount.stop OperandCount.sleep OperandCount.brk OperandCount.ei
    OperandCount.di OperandCount.add OperandCount.addc OperandCount.sub OperandCount.subc
    OperandCount.inc OperandCount.dec OperandCount.and OperandCount.or OperandCount.xor
    OperandCount.cmp OperandCount.cmpi OperandCount.jmp OperandCount.call OperandCount.ret
    OperandCount.reti OperandCount.brc OperandCount.brnc OperandCount.brz OperandCount.brnz
    OperandCount.mov OperandCount.ldi OperandCount.ld OperandCount.st OperandCount.lpm
    OperandCount.ldd OperandCount.std OperandCount.lpmd OperandCount.push OperandCount.pop
    OperandCount.inp OperandCount.out

open Laws in
theorem assemble_operandBytes (i : Instr) : AssembleOperands.Statement i :=
  i.casesOn AssembleOperands.nop AssembleOperands.stop AssembleOperands.sleep AssembleOperands.brk
    AssembleOperands.ei AssembleOperands.di AssembleOperands.add AssembleOperands.addc
    AssembleOperands.sub AssembleOperands.subc AssembleOperands.inc AssembleOperands.dec
    AssembleOperands.and AssembleOperands.or AssembleOperands.xor AssembleOperands.cmp
    AssembleOperands.cmpi AssembleOperands.jmp AssembleOperands.call AssembleOperands.ret
    AssembleOperands.reti AssembleOperands.brc AssembleOperands.brnc AssembleOperands.brz
    AssembleOperands.brnz AssembleOperands.mov AssembleOperands.ldi AssembleOperands.ld
    AssembleOperands.st AssembleOperands.lpm AssembleOperands.ldd AssembleOperands.std
    AssembleOperands.lpmd AssembleOperands.push AssembleOperands.pop AssembleOperands.inp
    AssembleOperands.out

theorem encode_length (map : OpcodeMap) (i : Instr) :
    (encode map i).length = i.mnemonic.length := by
  rw [encode, List.length_cons, operandBytes_length, Mnemonic.length, Nat.add_comm]

/-- Settles O52: an instruction's own operand bytes are as many as its class has, and they assemble to
it. -/
theorem decodeOfEncodeIsTheInstruction : Obligations.DecodeOfEncodeIsTheInstruction :=
  fun map i rest hmap =>
    encodesAs_of_assemble (operandBytes_length i) (assemble_operandBytes i) map hmap rest

/-! ### The bytes of an assembled instruction (30_encoding.md R85, R93) -/

/-- Encoding undoes operand assembly, but for the ignored nibbles. -/
theorem operandBytes_assemble (m : Mnemonic) (b1 b2 b3 : Byte) :
    (assemble m b1 b2 b3).operandBytes =
      clearIgnored m.operandClass ([b1, b2, b3].take m.operandClass.operandBytes) := by
  cases m with
  | add | addc | sub | subc | and | or | xor | cmp | mov => exact congrArg ([·]) (nibbles_hi4_lo4 b1)
  | jmp | call | brc | brnc | brz | brnz =>
    exact congrArg₂ ([·, ·]) (hi8_w16 b1 b2) (lo8_w16 b1 b2)
  | ld | st | lpm => exact congrArg₂ ([nibbles 0 (lo4 b1), ·, ·]) (hi8_w16 b2 b3) (lo8_w16 b2 b3)
  | ldd | std | lpmd => exact congrArg ([nibbles 0 (lo4 b1), ·]) (nibbles_hi4_lo4 b2)
  | nop | stop | sleep | brk | ei | di | ret | reti | inc | dec | push | pop | cmpi | ldi | inp
  | out => rfl

/-- The first bytes of a list, read one by one. -/
theorem take_eq_take_getD {bytes : List Byte} {n : Nat} (few : n ≤ 3) (enough : n ≤ bytes.length) :
    bytes.take n = [bytes.getD 0 0, bytes.getD 1 0, bytes.getD 2 0].take n := by
  refine List.ext_getElem (by simp [few, enough]) fun k hk _ => ?_
  obtain ⟨below, inside⟩ : k < n ∧ k < bytes.length := by simpa using hk
  have three : k = 0 ∨ k = 1 ∨ k = 2 := by omega
  rcases three with rfl | rfl | rfl <;> simp [inside]

/-- Settles O53: the opcode byte by `OpcodeMap.byte_of_inverse`, the operand bytes by
`operandBytes_assemble`. -/
theorem encodeOfDecodeIsTheBytes : Obligations.EncodeOfDecodeIsTheBytes := by
  intro map op operands i len decoded
  obtain ⟨m, assigned, enough, rfl, rfl⟩ := decodeBytes_ok decoded
  have count : m.length - 1 = m.operandClass.operandBytes := Nat.add_sub_cancel_left 1 _
  rw [encode, assemble_mnemonic, OpcodeMap.byte_of_inverse assigned, operandBytes_assemble, count,
    take_eq_take_getD m.operandClass.operandBytes_le enough]

/-! ### The length (30_encoding.md R81) -/

/-- Settles O54: both decodings have the one mnemonic that the map assigns to the opcode byte. -/
theorem lengthIsKnownFromTheOpcode : Obligations.LengthIsKnownFromTheOpcode := by
  intro map op xs ys i j len len' first second
  obtain ⟨m, assigned, -, rfl, rfl⟩ := decodeBytes_ok first
  obtain ⟨n, assigned', -, rfl, rfl⟩ := decodeBytes_ok second
  obtain rfl : m = n := Option.some.inj (assigned.symm.trans assigned')
  rw [assemble_mnemonic, assemble_mnemonic]
  exact ⟨rfl, rfl, m.length_pos, m.length_le, rfl, assigned⟩

/-! ### The pointer-pair instructions (30_encoding.md R84; 45_data_transfer.md R210 to R212) -/

theorem ptrAddr_of_toNat {ph pl : RegIdx} {s : State} {ea : Addr}
    (h : ea.toNat = (s.reg ph).toNat * 256 + (s.reg pl).toNat) : ptrAddr ph pl s = ea :=
  BitVec.eq_of_toNat_eq ((w16_toNat _ _).trans h.symm)

/-- The two operand bytes of class regPtrPair, whatever the ignored nibble `x`. -/
theorem encodesAs_of_regPtrPair {i : Instr} (x r ph pl : RegIdx)
    (ptrPair : i.mnemonic.operandClass = .regPtrPair)
    (assembled : ∀ b1 b2 b3 : Byte, lo4 b1 = r → hi4 b2 = ph → lo4 b2 = pl →
      assemble i.mnemonic b1 b2 b3 = i) :
    encodesAs (fun m => [m.byte i.mnemonic, nibbles x r, nibbles ph pl]) i :=
  encodesAs_of_assemble (by rw [ptrPair]; rfl) fun _ =>
    assembled _ _ _ (lo4_nibbles x r) (hi4_nibbles ph pl) (lo4_nibbles ph pl)

/-- Settles O22: each encoding by `encodesAs_of_regPtrPair`, each effect at `ptrAddr_of_toNat`. -/
theorem pointerPairTransfers : Obligations.PointerPairTransfers := by
  intro x r ph pl s ea value
  have pair : ptrAddr ph pl s = ea := ptrAddr_of_toNat value
  refine ⟨⟨?_, ?_⟩, ⟨?_, ?_⟩, ⟨?_, ?_⟩⟩
  · exact encodesAs_of_regPtrPair (i := .ldd r ph pl) x r ph pl rfl
      (by rintro _ _ _ rfl rfl rfl; rfl)
  · rw [exec_eq, execState_ldd, pair]
  · exact encodesAs_of_regPtrPair (i := .std r ph pl) x r ph pl rfl
      (by rintro _ _ _ rfl rfl rfl; rfl)
  · rw [exec_eq, execState_std, pair]
  · exact encodesAs_of_regPtrPair (i := .lpmd r ph pl) x r ph pl rfl
      (by rintro _ _ _ rfl rfl rfl; rfl)
  · rw [exec_eq, execState_lpmd, pair]

/-! ### The default map (30_encoding.md R86, R89) -/

/-- Settles O55: a finite check of the default map and of the words of 95_test_vectors.md L2.9. -/
theorem defaultMapAndSampleWords : Obligations.DefaultMapAndSampleWords := by
  exact ⟨by decide, by decide +kernel, by decide⟩

end Sys2Proof.Machine
end

section
/-! SUPPORT. The family 30_encoding.md, the disassembler: what a walk passes and where it ends, and the
two disassemblies the spec gives, of one encoded instruction and of zero-filled program memory. -/

namespace Sys2Proof.Machine

/-! ### What a walk answers (30_encoding.md R101, R104) -/

theorem disasmWalk_of_illegal {map : OpcodeMap} {m : Memory} {bound fuel c : Nat} {v : Byte}
    (inside : c < bound) (enough : bound - c ≤ fuel)
    (illegal : decodeAt map m (BitVec.ofNat 16 c) = .illegal v) :
    disasmWalk map m bound fuel c = .illegalOpcode v := by
  rcases disasmWalk_cases (map := map) (m := m) inside enough with
    ⟨w, found, failed⟩ | ⟨i, len, found, -⟩
  · cases illegal.symm.trans found; exact failed
  · cases illegal.symm.trans found

theorem decodeAt_of_unassigned {map : OpcodeMap} {m : Memory} {a : Addr}
    (h : map.inverse (m.read a.toNat) = none) : decodeAt map m a = .illegal (m.read a.toNat) := by
  rw [decodeAt_eq, h]

/-- A walk that is at cursor `c` passes records and arrives at a cursor where it ends: past the bound,
with those records as its answer, or at an illegal byte, with the failure as its answer. -/
theorem disasmWalk_walks (s : State) {fuel : Nat} (c : Nat) (enough : disasmBound s - c ≤ fuel) :
    ∃ (walked : List DisasmRecord) (d : Nat), walkReaches s c walked d ∧
      ((disasmBound s ≤ d ∧ disasmWalk s.config.opcodeMap s.pmem (disasmBound s) fuel c =
          .records walked) ∨
        ∃ v : Byte, d < disasmBound s ∧
          decodeAt s.config.opcodeMap s.pmem (BitVec.ofNat 16 d) = .illegal v ∧
          disasmWalk s.config.opcodeMap s.pmem (disasmBound s) fuel c = .illegalOpcode v) := by
  by_cases inside : c < disasmBound s
  case neg =>
    have past : disasmBound s ≤ c := Nat.not_lt.mp inside
    exact ⟨[], c, rfl, .inl ⟨past, disasmWalk_done _ _ past⟩⟩
  case pos =>
    rcases disasmWalk_cases (map := s.config.opcodeMap) (m := s.pmem) inside enough with
      ⟨v, illegal, failed⟩ | ⟨i, len, found, next⟩
    · exact ⟨[], c, rfl, .inr ⟨v, inside, illegal, failed⟩⟩
    · have positive : 1 ≤ len := (decodeAt_len found).1
      obtain ⟨rest, d, reached, ended⟩ := disasmWalk_walks s (fuel := fuel) (c + len) (by omega)
      refine ⟨_ :: rest, d, ⟨inside, i, len, found, rfl, reached⟩, ?_⟩
      rcases ended with ⟨past, answer⟩ | ⟨v, before, illegal, answer⟩
      · exact .inl ⟨past, by rw [next, answer]; rfl⟩
      · exact .inr ⟨v, before, illegal, by rw [next, answer]; rfl⟩
termination_by disasmBound s - c

/-- A walk that passes records and arrives at an illegal byte answers the failure and no record. -/
theorem disasmWalk_illegal_of_walkReaches {s : State} {walked : List DisasmRecord} {c d fuel : Nat}
    {v : Byte} (enough : disasmBound s - c ≤ fuel) (reached : walkReaches s c walked d)
    (before : d < disasmBound s)
    (illegal : decodeAt s.config.opcodeMap s.pmem (BitVec.ofNat 16 d) = .illegal v) :
    disasmWalk s.config.opcodeMap s.pmem (disasmBound s) fuel c = .illegalOpcode v := by
  induction walked generalizing c with
  | nil => cases reached; exact disasmWalk_of_illegal before enough illegal
  | cons r rest ih =>
    obtain ⟨inside, i, len, found, -, onward⟩ := reached
    rw [disasmWalk_step inside enough found, ih (by omega) onward]
    rfl

theorem disassemble_records {s : State} {rs : List DisasmRecord} (h : disassemble s = .records rs) :
    ∃ d : Nat, walkReaches s 0 rs d ∧ disasmBound s ≤ d := by
  obtain ⟨walked, d, reached, ⟨past, answer⟩ | ⟨v, -, -, failed⟩⟩ :=
    disasmWalk_walks s (fuel := disasmBound s) 0 (Nat.sub_le _ _)
  · cases answer.symm.trans h; exact ⟨d, reached, past⟩
  · cases failed.symm.trans h

theorem disassemble_illegal_iff (s : State) (v : Byte) :
    disassemble s = .illegalOpcode v ↔
      ∃ (walked : List DisasmRecord) (c : Nat), walkReaches s 0 walked c ∧ c < disasmBound s ∧
        s.readProgram (BitVec.ofNat 16 c) = v ∧ s.config.opcodeMap.inverse v = none := by
  constructor
  · intro h
    obtain ⟨walked, d, reached, ⟨-, answer⟩ | ⟨w, before, illegal, failed⟩⟩ :=
      disasmWalk_walks s (fuel := disasmBound s) 0 (Nat.sub_le _ _)
    · cases answer.symm.trans h
    · cases failed.symm.trans h
      obtain ⟨unassigned, byte⟩ := decodeAt_illegal illegal
      exact ⟨walked, d, reached, before, byte, unassigned⟩
  · rintro ⟨walked, c, reached, before, rfl, unassigned⟩
    exact disasmWalk_illegal_of_walkReaches (Nat.sub_le _ _) reached before
      (decodeAt_of_unassigned unassigned)

/-! ### The records of a walk (30_encoding.md R101, R102) -/

theorem walkReaches_head {s : State} {rs : List DisasmRecord} {c d : Nat} {r : DisasmRecord}
    (fits : disasmBound s ≤ 65536) (reached : walkReaches s c rs d) (h : rs[0]? = some r) :
    r.address.toNat = c := by
  cases rs with
  | nil => cases h
  | cons q rest =>
    cases h
    obtain ⟨inside, -, -, -, rfl, -⟩ := reached
    exact (BitVec.toNat_ofNat c 16).trans (Nat.mod_eq_of_lt (by omega))

/-- The `k`-th record of a walk is that of the instruction at its address, which is below the bound, and
the walk goes on where the record ends. -/
theorem walkReaches_getElem? {s : State} {rs : List DisasmRecord} {c d k : Nat} {r : DisasmRecord}
    (fits : disasmBound s ≤ 65536) (reached : walkReaches s c rs d) (h : rs[k]? = some r) :
    r.address.toNat < disasmBound s ∧
    (∃ (i : Instr) (len : Nat), decodeAt s.config.opcodeMap s.pmem r.address = .ok i len ∧
      r.bytes = (s.pmem.window r.address).take len ∧ r.text = render i) ∧
    walkReaches s (r.address.toNat + r.bytes.length) (rs.drop (k + 1)) d := by
  induction rs generalizing c k with
  | nil => cases h
  | cons q rest ih =>
    have address (hq : (q :: rest)[0]? = some q) : q.address.toNat = c :=
      walkReaches_head fits reached hq
    obtain ⟨inside, i, len, found, rfl, onward⟩ := reached
    cases k with
    | zero =>
      cases h
      rw [address rfl, disasmRecord_length _ _ _ (decodeAt_len found).2]
      exact ⟨inside, ⟨i, len, found, rfl, rfl⟩, onward⟩
    | succ k => exact ih onward h

/-- Settles O56: `disassemble_records` and `disassemble_illegal_iff` give the walk of each answer, and
`walkReaches_getElem?` what stands at each place of it. -/
theorem disassemblyIsOneLinearWalk : Obligations.DisassemblyIsOneLinearWalk := by
  intro s fits
  refine ⟨rfl, fun rs answer => ?_, disassemble_illegal_iff s⟩
  obtain ⟨d, reached, past⟩ := disassemble_records answer
  refine ⟨fun r hr => ?_, fun r hr => ?_, fun k r q hr hq => ?_, fun r hr => ?_, fun r hr => ?_,
    fun positive => ?_⟩
  · obtain ⟨k, hk⟩ := List.mem_iff_getElem?.mp hr
    obtain ⟨-, decoded, -⟩ := walkReaches_getElem? fits reached hk
    exact decoded
  · obtain ⟨k, hk⟩ := List.mem_iff_getElem?.mp hr
    obtain ⟨below, -⟩ := walkReaches_getElem? fits reached hk
    exact below
  · obtain ⟨-, -, onward⟩ := walkReaches_getElem? fits reached hr
    exact walkReaches_head fits onward (List.getElem?_drop.trans hq)
  · exact BitVec.eq_of_toNat_eq (walkReaches_head fits reached hr)
  · have last : rs[rs.length - 1]? = some r := List.getLast?_eq_getElem?.symm.trans hr
    obtain ⟨-, -, onward⟩ := walkReaches_getElem? fits reached last
    rw [List.drop_eq_nil_of_le (by omega)] at onward
    exact past.trans_eq onward.symm
  · rintro rfl
    have stayed : 0 = d := reached
    omega

/-! ### An encoded instruction, loaded (30_encoding.md R103; 95_test_vectors.md L1.5) -/

/-- At most four bytes written at an address head the window there. -/
theorem Memory.window_writeBytes {bytes : List Byte} (few : bytes.length ≤ 4) (m : Memory) (a : Addr) :
    (m.writeBytes a bytes).window a = bytes ++ (m.window a).drop bytes.length := by
  have fits : bytes.length ≤ 65536 := by omega
  have ahead (k : Addr) : a + k - a = k := by bv_omega
  simp only [Memory.window, Memory.read_writeBytes bytes m a _ fits, ahead, BitVec.sub_self]
  match bytes, few with
  | [], _ => rfl
  | [_], _ => rfl
  | [_, _], _ => rfl
  | [_, _, _], _ => rfl
  | [_, _, _, _], _ => rfl

theorem encode_length_le (map : OpcodeMap) (i : Instr) : (encode map i).length ≤ 4 :=
  (encode_length map i).trans_le i.mnemonic.length_le

/-- The record at an address that an encoded instruction was written to. -/
theorem disasmRecord_writeBytes_encode (map : OpcodeMap) (m : Memory) (a : Addr) (i : Instr) :
    disasmRecord (m.writeBytes a (encode map i)) a i (encode map i).length =
      ⟨a, encode map i, render i⟩ := by
  rw [disasmRecord, Memory.window_writeBytes (encode_length_le map i), List.take_left]

theorem decodeAt_writeBytes_encode {map : OpcodeMap} (hmap : map.wf = true) (m : Memory) (a : Addr)
    (i : Instr) :
    decodeAt map (m.writeBytes a (encode map i)) a = .ok i (encode map i).length := by
  rw [decodeAt, Memory.window_writeBytes (encode_length_le map i)]
  exact decodeOfEncodeIsTheInstruction map i _ hmap

theorem loadProgram_next {bytes : List Byte} {s t : State} (h : loadProgram bytes s = .next t) :
    t.pmem = s.pmem.writeBytes 0x0000 bytes ∧ t.loadedLen = bytes.length ∧ t.config = s.config := by
  unfold loadProgram at h
  split at h
  · cases h; exact ⟨rfl, rfl, rfl⟩
  · cases h

theorem disasmBound_pos {s : State} (h : 0 < s.loadedLen) : 0 < disasmBound s := by
  unfold disasmBound
  split
  · decide
  · exact h

/-- A disassembly of program memory with an encoded instruction at 0 has that instruction's record first
and goes on behind it. -/
theorem disassemble_of_encoded {s : State} {m : Memory} {i : Instr} (hconfig : s.config.wf = true)
    (written : s.pmem = m.writeBytes 0x0000 (encode s.config.opcodeMap i))
    (inside : 0 < disasmBound s) :
    disassemble s =
      (disasmWalk s.config.opcodeMap s.pmem (disasmBound s) (disasmBound s)
        (encode s.config.opcodeMap i).length).cons
          ⟨0x0000, encode s.config.opcodeMap i, render i⟩ := by
  have found : decodeAt s.config.opcodeMap s.pmem 0x0000 =
      .ok i (encode s.config.opcodeMap i).length := by
    rw [written]; exact decodeAt_writeBytes_encode hconfig m 0x0000 i
  have record : disasmRecord s.pmem 0x0000 i (encode s.config.opcodeMap i).length =
      ⟨0x0000, encode s.config.opcodeMap i, render i⟩ := by
    rw [written]; exact disasmRecord_writeBytes_encode s.config.opcodeMap m 0x0000 i
  calc disassemble s
      = (disasmWalk s.config.opcodeMap s.pmem (disasmBound s) (disasmBound s)
          (0 + (encode s.config.opcodeMap i).length)).cons
            (disasmRecord s.pmem 0x0000 i (encode s.config.opcodeMap i).length) :=
        disasmWalk_step inside (Nat.sub_le _ _) found
    _ = _ := by rw [record, Nat.zero_add]

/-- Settles O57: `disassemble_of_encoded` gives the first record; under `LoadedLength` the walk behind it
is at the bound. -/
theorem disassemblyReproducesTheInstruction : Obligations.DisassemblyReproducesTheInstruction := by
  intro i s t hconfig loaded
  obtain ⟨written, loadedLen, config⟩ := loadProgram_next loaded
  rw [← config] at hconfig written loadedLen ⊢
  have first := disassemble_of_encoded hconfig written
    (disasmBound_pos (by rw [loadedLen]; exact Nat.succ_pos _))
  refine ⟨fun rs answer => ?_, fun toLoaded => ?_⟩
  · obtain ⟨rest, -, rfl⟩ := DisasmResult.cons_eq_records (first.symm.trans answer)
    rfl
  · rw [first, disasmWalk_done]
    · rfl
    · rw [disasmBound, toLoaded, loadedLen]

/-! ### Zero-filled program memory (30_encoding.md R107) -/

theorem decodeAt_zero {map : OpcodeMap} (hmap : map.wf = true) {m : Memory} {a : Addr}
    (zero : m.read a.toNat = 0x00) : decodeAt map m a = .ok .nop 1 := by
  rw [decodeAt_eq, zero, ← OpcodeMap.wf_nop hmap, OpcodeMap.inverse_byte hmap]
  rfl

theorem disasmRecord_zero {m : Memory} {a : Addr} (zero : m.read a.toNat = 0x00) :
    disasmRecord m a .nop 1 = ⟨a, [0x00], "NOP"⟩ := by
  rw [← zero]; rfl

/-- Over program memory that reads zero, a walk with `n` bytes left has `n` NOP records. -/
theorem disasmWalk_zero {map : OpcodeMap} (hmap : map.wf = true) {m : Memory}
    (zero : ∀ a : Addr, m.read a.toNat = 0x00) {bound fuel c n : Nat} (left : bound = c + n)
    (enough : n ≤ fuel) :
    disasmWalk map m bound fuel c =
      .records ((List.range' c n).map fun c => ⟨BitVec.ofNat 16 c, [0x00], "NOP"⟩) := by
  induction n generalizing c with
  | zero => exact disasmWalk_done _ _ (by omega)
  | succ n ih =>
    rw [disasmWalk_step (by omega) (by omega) (decodeAt_zero hmap (zero _)),
      ih (by omega) (by omega), disasmRecord_zero (zero _), List.range'_succ]
    rfl

/-- Settles O58: the walk of `disasmWalk_zero` from 0 with 65536 bytes left. -/
theorem zeroMemoryDisassemblesToNops : Obligations.ZeroMemoryDisassemblesToNops := by
  intro s hconfig full zero
  have bound : disasmBound s = 65536 := by rw [disasmBound, full]
  rw [disassemble, bound, List.range_eq_range']
  exact disasmWalk_zero hconfig zero (Nat.zero_add _).symm le_rfl

end Sys2Proof.Machine
end

section
/-! SUPPORT. The family 40_execution_cycle.md: what each kind of step does, how the status moves, that a
core which cannot fetch keeps its state over any requests but a reset, and the host's requests. -/

namespace Sys2Proof.Machine

/-! ### The kinds of step, an equation each (40_execution_cycle.md R120 to R126) -/

theorem step_of_idle {s : State}
    (idle : s.status = .stopped ∨ (s.status = .sleeping ∧ s.dueLine = none)) :
    step s = .next s.clearEvents := by
  rcases step_kinds s with ⟨-, h⟩ | ⟨l, awake, due, -, -⟩ | ⟨awake, -, goes, -⟩
  · exact h
  · simp [awake, due] at idle
  · rcases idle with stopped | ⟨sleeping, noneDue⟩
    · exact absurd stopped awake
    · simp [sleeping, noneDue] at goes

theorem step_of_awake {s : State} (awake : s.status ≠ .stopped) :
    step s = cycleAwake s.clearEvents := if_neg awake

theorem step_of_dispatch_only {s : State} {l : Line} (awake : s.status ≠ .stopped)
    (due : s.dueLine = some l) (only : s.config.dispatchThenFetch = false) :
    step s = .next (dispatch l s.clearEvents) := by
  simp [step_of_awake awake, cycleAwake, dueLine_clearEvents, due, only]

theorem step_of_dispatch_then_fetch {s : State} {l : Line} (awake : s.status ≠ .stopped)
    (due : s.dueLine = some l) (both : s.config.dispatchThenFetch = true) :
    step s = fetchExecute (fetchState s) := by
  simp [step_of_awake awake, cycleAwake, dueLine_clearEvents, due, both, fetchState_of_due due]

theorem step_of_running {s : State} (running : s.status = .running) (noneDue : s.dueLine = none) :
    step s = fetchExecute (fetchState s) := by
  have awake : s.status ≠ .stopped := by simp [running]
  simp [step_of_awake awake, cycleAwake, dueLine_clearEvents, noneDue, running,
    fetchState_of_none noneDue]

/-- A step that fetches runs what the bytes at `fetchAddr` decode to, with `pc` past them. -/
theorem fetchExecute_fetchState_of_decode {s : State} {i : Instr} {len : Nat}
    (decoded : decodeAt s.config.opcodeMap s.pmem (fetchAddr s) = .ok i len) :
    fetchExecute (fetchState s) =
      exec i ((fetchState s).setPc (fetchAddr s + BitVec.ofNat 16 len)) := by
  obtain ⟨config, pmem, pc, -⟩ := fetchState_keeps s
  rw [← pc]
  exact fetchExecute_of_decode (by rw [config, pmem, pc]; exact decoded)

/-- A step that fetches an unassigned byte faults with `pc` past that byte. -/
theorem fetchExecute_fetchState_of_illegal {s : State}
    (illegal : s.config.opcodeMap.inverse (s.readProgram (fetchAddr s)) = none) :
    fetchExecute (fetchState s) = .fault (.illegalOpcode (s.readProgram (fetchAddr s))
      ((fetchState s).setPc (fetchAddr s + 1))) := by
  obtain ⟨config, pmem, pc, -⟩ := fetchState_keeps s
  have read : (fetchState s).readProgram (fetchState s).pc = s.readProgram (fetchAddr s) := by
    simp only [State.readProgram, pmem, pc]
  rw [← read, ← pc]
  exact fetchExecute_of_illegal (by rw [config, read]; exact illegal)

/-- Settles O34: with nothing due the step fetches at `pc`, from the state with its lists emptied. -/
theorem stepRunsTheDecodedInstruction : Obligations.StepRunsTheDecodedInstruction := by
  intro s i len running noneDue decoded
  rw [← fetchAddr_none noneDue] at decoded
  rw [step_of_running running noneDue, fetchExecute_fetchState_of_decode decoded,
    fetchState_of_none noneDue, fetchAddr_none noneDue]
  rfl

/-- Settles O35: `step_of_idle`. -/
theorem stoppedAndSleepingStepsDoNothing : Obligations.StoppedAndSleepingStepsDoNothing :=
  fun _ => step_of_idle

/-- Settles O37: the dispatching step under each value of `DISPATCH_THEN_FETCH`; the fetch is at the
vector, from the state that the dispatch left. -/
theorem dispatchingStepRunsTheHandler : Obligations.DispatchingStepRunsTheHandler := by
  rintro s _ l awake due rfl
  refine ⟨step_of_dispatch_only awake due, fun i len both decoded => ?_⟩
  rw [← fetchAddr_due due] at decoded
  rw [step_of_dispatch_then_fetch awake due both, fetchExecute_fetchState_of_decode decoded,
    fetchState_of_due due, fetchAddr_due due]
  rfl

/-- Settles O38: `fetchExecute_fetchState_of_illegal`, without and with a dispatch before the fetch. -/
theorem illegalOpcodeConsumesOneByte : Obligations.IllegalOpcodeConsumesOneByte := by
  intro s d l v unassigned
  constructor
  · rintro running noneDue rfl
    rw [← fetchAddr_none noneDue] at unassigned
    rw [step_of_running running noneDue, fetchExecute_fetchState_of_illegal unassigned,
      fetchState_of_none noneDue, fetchAddr_none noneDue]
    rfl
  · rintro awake due both rfl rfl
    rw [← fetchAddr_due due] at unassigned
    rw [step_of_dispatch_then_fetch awake due both, fetchExecute_fetchState_of_illegal unassigned,
      fetchState_of_due due, fetchAddr_due due]
    rfl

/-! ### The status (40_execution_cycle.md R130, R133) -/

theorem fetchState_status {s : State} (goes : s.status = .running ∨ s.dueLine ≠ none) :
    (fetchState s).status = .running := by
  cases due : s.dueLine with
  | none => rw [fetchState_of_none due]; exact goes.resolve_right (fun h => h due)
  | some l => rw [fetchState_of_due due, dispatch_eq]

/-- The status after a completed step: kept by an idle step, else Running unless the step ran STOP or
SLEEP. -/
theorem step_status {s t : State} (h : step s = .next t) :
    ((s.status = .stopped ∨ (s.status = .sleeping ∧ s.dueLine = none)) ∧ t.status = s.status) ∨
    t.status = .running ∨
    (t.status = .stopped ∧ decodeAt s.config.opcodeMap s.pmem (fetchAddr s) = .ok .stop 1) ∨
    (t.status = .sleeping ∧ decodeAt s.config.opcodeMap s.pmem (fetchAddr s) = .ok .sleep 1) := by
  rcases step_outcomes s with ⟨still, idle⟩ | ⟨l, only, -, -, -⟩ | ⟨-, -, fault⟩ |
    ⟨i, len, -, goes, decoded, ran⟩
  · cases still.symm.trans h
    exact .inl ⟨idle, rfl⟩
  · cases only.symm.trans h
    exact .inr (.inl (by rw [dispatch_eq]))
  · cases fault.symm.trans h
  · cases ran.symm.trans h
    have length := decodeAt_length decoded
    rw [execState_status, setPc_status, fetchState_status goes]
    by_cases stop : i = .stop
    · subst stop length
      exact .inr (.inr (.inl ⟨rfl, decoded⟩))
    by_cases sleep : i = .sleep
    · subst sleep length
      exact .inr (.inr (.inr ⟨rfl, decoded⟩))
    · exact .inr (.inl (by rw [if_neg stop, if_neg sleep]))

/-- Settles O40: the last two clauses are idle steps, the first two are read off `step_status`. -/
theorem statusChangesOnlyAsTheTableSays : Obligations.StatusChangesOnlyAsTheTableSays := by
  intro s t h
  have kept (idle : s.status = .stopped ∨ (s.status = .sleeping ∧ s.dueLine = none)) :
      t.status = s.status := by
    cases (step_of_idle idle).symm.trans h; rfl
  refine ⟨fun stopped => ?_, fun sleeping => ?_, fun stopped => (kept (.inl stopped)).trans stopped,
    fun sleeping noneDue => (kept (.inr ⟨sleeping, noneDue⟩)).trans sleeping⟩
  · rcases step_status h with ⟨-, same⟩ | running | ⟨-, fetched⟩ | ⟨sleeping, -⟩
    · exact .inl (same.symm.trans stopped)
    · cases running.symm.trans stopped
    · exact .inr fetched
    · cases sleeping.symm.trans stopped
  · rcases step_status h with ⟨idle, same⟩ | running | ⟨stopped, -⟩ | ⟨-, fetched⟩
    · exact .inl (idle.resolve_left fun stopped => by simp [same, stopped] at sleeping)
    · cases running.symm.trans sleeping
    · cases stopped.symm.trans sleeping
    · exact .inr fetched

/-! ### The ends of a run (40_execution_cycle.md R135) -/

theorem pend_get_of_dueLine {s : State} {l : Line} (due : s.dueLine = some l) :
    s.pend.get l = true := by
  unfold State.dueLine at due
  split at due
  · exact List.find?_some due
  · cases due

theorem dueLine_of_not_ie {s : State} (masked : s.ie = false) : s.dueLine = none := by
  simp [State.dueLine, masked]

theorem dueLine_of_ie {s : State} (enabled : s.ie = true) : s.dueLine = s.pend.highest := by
  simp [State.dueLine, enabled]

theorem runEnd_eq_none_iff (s : State) :
    s.runEnd = none ↔ s.status = .running ∨ (s.status = .sleeping ∧ s.dueLine ≠ none) := by
  cases status : s.status with
  | running | stopped => simp [State.runEnd, status]
  | sleeping =>
    cases ie : s.ie with
    | false => simp [State.runEnd, status, ie, dueLine_of_not_ie ie]
    | true => simp [State.runEnd, status, ie, dueLine_of_ie ie]

/-- A state at an end of a run is one whose step is idle. -/
theorem idle_of_runEnd {s : State} (ended : s.runEnd ≠ none) :
    s.status = .stopped ∨ (s.status = .sleeping ∧ s.dueLine = none) := by
  rw [Ne, runEnd_eq_none_iff] at ended
  cases status : s.status with
  | running => exact absurd (.inl status) ended
  | sleeping => exact .inr ⟨rfl, by_contra fun due => ended (.inr ⟨status, due⟩)⟩
  | stopped => exact .inl rfl

/-- Settles O45: a state at an end is idle; a step that dispatches clears its line, which was
pending. -/
theorem endedRunsDoNotMove : Obligations.EndedRunsDoNotMove := by
  intro s
  refine ⟨fun ended => step_of_idle (idle_of_runEnd ended), fun goesOn l due same => ?_,
    runEnd_eq_none_iff s⟩
  have pending := pend_get_of_dueLine due
  obtain ⟨-, stopped | notDue⟩ :=
    (oneLineIsClearedExactlyByItsDispatch s _ l same).mp pending
  · simp [runEnd_eq_none_iff, stopped] at goesOn
  · exact notDue due

/-! ### A core that cannot fetch, over requests without a reset (40_execution_cycle.md R131, R132) -/

/-- Stopped, or Sleeping with `IE` false: no step of it fetches, whatever lines are pending. -/
def State.Halted (s : State) : Prop := s.status = .stopped ∨ (s.status = .sleeping ∧ s.ie = false)

/-- `t` has the status, `pc`, `sp`, registers, flags and data memory of `s`, and every line that was
pending in `s` is pending in `t`. -/
structure CoreKept (s t : State) : Prop where
  status : t.status = s.status
  pc : t.pc = s.pc
  sp : t.sp = s.sp
  regs : t.regs = s.regs
  dmem : t.dmem = s.dmem
  carry : t.carry = s.carry
  zero : t.zero = s.zero
  ie : t.ie = s.ie
  pend : ∀ l : Line, s.pend.get l = true → t.pend.get l = true

theorem CoreKept.refl (s : State) : CoreKept s s :=
  ⟨rfl, rfl, rfl, rfl, rfl, rfl, rfl, rfl, fun _ => id⟩

theorem CoreKept.trans {s t u : State} (h : CoreKept s t) (k : CoreKept t u) : CoreKept s u where
  status := k.status.trans h.status
  pc := k.pc.trans h.pc
  sp := k.sp.trans h.sp
  regs := k.regs.trans h.regs
  dmem := k.dmem.trans h.dmem
  carry := k.carry.trans h.carry
  zero := k.zero.trans h.zero
  ie := k.ie.trans h.ie
  pend l hl := k.pend l (h.pend l hl)

theorem CoreKept.halted {s t : State} (h : CoreKept s t) (halted : s.Halted) : t.Halted := by
  rw [State.Halted, h.status, h.ie]; exact halted

theorem assertLine_coreKept (l : Line) (s : State) : CoreKept s (assertLine l s) where
  __ := CoreKept.refl s
  pend k hk := by
    rw [assertLine, setPend_pend, Pending.get_set, hk]
    exact ite_self _

theorem stateAfter_step_coreKept {s : State} (halted : s.Halted) :
    CoreKept s (stateAfter s (step s)) := by
  rw [step_of_idle (halted.imp_right (And.imp_right dueLine_of_not_ie))]
  exact { CoreKept.refl s with }

theorem stateAfter_steps_coreKept {s : State} (halted : s.Halted) (n : Nat) :
    CoreKept s (stateAfter s (steps n s)) :=
  steps_keep (P := CoreKept s)
    (fun _ kept => kept.trans (stateAfter_step_coreKept (kept.halted halted))) n (.refl s)

theorem stateAfter_load_coreKept (bytes : List Byte) (s : State) :
    CoreKept s (stateAfter s (loadProgram bytes s)) := by
  rw [stateAfter_load]
  split <;> exact { CoreKept.refl s with }

theorem handle_coreKept {request : HostRequest} (noReset : request ≠ .reset) {s : State}
    (halted : s.Halted) : CoreKept s (handle request s).2 := by
  cases request with
  | step => exact stateAfter_step_coreKept halted
  | steps n => exact stateAfter_steps_coreKept halted n
  | reset => exact absurd rfl noReset
  | load bytes => exact stateAfter_load_coreKept bytes s
  | irqVblank | irqButton | irqKeyboard | irqSerial => exact assertLine_coreKept _ s
  | bind => exact { CoreKept.refl s with }
  | disassemble | readState => exact .refl s

theorem handleAll_coreKept {requests : List HostRequest} (noReset : .reset ∉ requests) {s : State}
    (halted : s.Halted) : CoreKept s (handleAll requests s).2 :=
  handleAll_keep (P := CoreKept s)
    (fun _ mem _ kept => kept.trans
      (handle_coreKept (fun isReset => noReset (isReset ▸ mem)) (kept.halted halted))) (.refl s)

theorem handleAll_pmem_of_no_load {requests : List HostRequest}
    (noLoad : ∀ bytes : List Byte, .load bytes ∉ requests) (s : State) :
    (handleAll requests s).2.pmem = s.pmem :=
  handleAll_keep (P := fun t => t.pmem = s.pmem)
    (fun _ mem t ht => (handle_pmem_of_not_load (fun bytes isLoad => noLoad bytes (isLoad ▸ mem))
      t).trans ht) rfl

/-- Settles O43: `handleAll_coreKept` for a Stopped core; what a reset does is its definition. -/
theorem stoppedIsLeftOnlyByReset : Obligations.StoppedIsLeftOnlyByReset := by
  rintro requests s _ stopped noReset rfl
  have kept := handleAll_coreKept noReset (.inl stopped)
  exact ⟨kept.status.trans stopped, kept.pc, kept.sp, kept.regs, kept.dmem, kept.carry, kept.zero,
    kept.ie, kept.pend, fun noLoad => handleAll_pmem_of_no_load noLoad s, rfl,
    fun l => by cases l <;> rfl⟩

/-- Settles O44: `handleAll_coreKept` for a core Sleeping with `IE` false. -/
theorem sleepingWithoutIeIsStuck : Obligations.SleepingWithoutIeIsStuck := by
  rintro requests s _ sleeping masked noReset rfl
  have kept := handleAll_coreKept noReset (.inr ⟨sleeping, masked⟩)
  refine ⟨?_, kept.pc, kept.sp, kept.regs, kept.dmem, kept.carry, kept.zero⟩
  simp [State.runEnd, kept.status, sleeping, kept.ie, masked]

/-! ### `steps(n)` (40_execution_cycle.md R128, R129) -/

theorem steps_succ_eq_next_iff {n : Nat} {s u : State} :
    steps (n + 1) s = .next u ↔ ∃ t : State, step s = .next t ∧ steps n t = .next u := by
  rw [steps_succ]
  cases step s <;> simp

theorem steps_succ_eq_fault_iff {n : Nat} {s : State} {f : Fault} :
    steps (n + 1) s = .fault f ↔
      step s = .fault f ∨ ∃ t : State, step s = .next t ∧ steps n t = .fault f := by
  rw [steps_succ]
  cases step s <;> simp

theorem steps_one (s : State) : steps 1 s = step s := by
  rw [steps_succ]
  cases step s <;> rfl

theorem steps_succ_of_next {n : Nat} {s t : State} (reached : steps n s = .next t) :
    steps (n + 1) s = step t := by
  induction n generalizing s with
  | zero => cases reached; exact steps_one t
  | succ n ih =>
    obtain ⟨r, completed, rest⟩ := steps_succ_eq_next_iff.mp reached
    rw [steps_succ, completed]
    exact ih rest

theorem steps_eq_fault_iff {n : Nat} {s : State} {f : Fault} :
    steps n s = .fault f ↔
      ∃ (k : Nat) (u : State), k < n ∧ steps k s = .next u ∧ step u = .fault f := by
  induction n generalizing s with
  | zero => simp [steps]
  | succ n ih =>
    rw [steps_succ_eq_fault_iff]
    constructor
    · rintro (atOnce | ⟨t, completed, later⟩)
      · exact ⟨0, s, n.succ_pos, rfl, atOnce⟩
      · obtain ⟨k, u, below, reached, fault⟩ := ih.mp later
        exact ⟨k + 1, u, Nat.succ_lt_succ below,
          steps_succ_eq_next_iff.mpr ⟨t, completed, reached⟩, fault⟩
    · rintro ⟨k, u, below, reached, fault⟩
      cases k with
      | zero => cases reached; exact .inl fault
      | succ k =>
        obtain ⟨t, completed, rest⟩ := steps_succ_eq_next_iff.mp reached
        exact .inr ⟨t, completed, ih.mpr ⟨k, u, Nat.lt_of_succ_lt_succ below, rest, fault⟩⟩

/-- Settles O46: `steps_succ_of_next` and `steps_eq_fault_iff`, inductions on the number of steps. -/
theorem stepsEndAtTheFirstFault : Obligations.StepsEndAtTheFirstFault :=
  fun _ _ => ⟨rfl, fun _ => steps_succ_of_next, fun _ => steps_eq_fault_iff⟩

/-! ### Load, stimulus and binding (40_execution_cycle.md R137 to R142) -/

theorem loadProgram_of_fits {bytes : List Byte} (fits : bytes.length ≤ 65536) (s : State) :
    loadProgram bytes s =
      .next { s with pmem := s.pmem.writeBytes 0x0000 bytes, loadedLen := bytes.length } :=
  if_pos fits

theorem loadProgram_of_too_large {bytes : List Byte} (large : 65536 < bytes.length) (s : State) :
    loadProgram bytes s = .fault .programTooLarge :=
  if_neg (Nat.not_le.mpr large)

/-- Settles O47: the bytes by `Memory.read_writeBytes` from address 0, the failure by
`loadProgram_of_too_large`. -/
theorem loadCopiesTheProgram : Obligations.LoadCopiesTheProgram := by
  intro bytes s
  refine ⟨fun fits => ⟨_, loadProgram_of_fits fits s, fun a => ?_⟩, fun large => ?_⟩
  · have offset : a - 0x0000 = a := BitVec.sub_zero a
    rw [Memory.read_writeBytes bytes s.pmem 0x0000 a fits, offset]
    rfl
  · have fails := loadProgram_of_too_large large s
    exact ⟨fails, by rw [handle, fails]; rfl⟩

/-- Settles O48: each request sets its own line by definition. -/
theorem stimulusSetsItsLineOnly : Obligations.StimulusSetsItsLineOnly :=
  fun _ _ _ => ⟨rfl, rfl, rfl, rfl⟩

theorem mem_insertPort_if (p q : Byte) (installs : Bool) (l : List Byte) :
    q ∈ (if installs then insertPort p l else l) ↔ q ∈ l ∨ (installs = true ∧ q = p) := by
  cases installs with
  | false => simp
  | true => simp [mem_insertPort, or_comm]

/-- Settles O27: `mem_insertPort_if` for each list of the port table, the only piece bound to. -/
theorem bindingInstallsCallbacks : Obligations.BindingInstallsCallbacks := by
  rintro p q read write s _ rfl
  exact ⟨mem_insertPort_if p q read s.ports.readBound, mem_insertPort_if p q write s.ports.writeBound,
    rfl, rfl⟩

end Sys2Proof.Machine
end

section
/-! SUPPORT. The family 41_system.md: the one-byte encodings of class `none`, and the one effect of each
system instruction. -/

namespace Sys2Proof.Machine

/-- An instruction of class `none` is its opcode byte alone (30_encoding.md R82). -/
theorem encodesAs_of_class_none {i : Instr} (classNone : i.mnemonic.operandClass = .none) :
    encodesAs (fun m => [m.byte i.mnemonic]) i := by
  intro map hmap rest
  have noOperands : i.operandBytes = [] :=
    List.eq_nil_of_length_eq_zero (by rw [operandBytes_length, classNone]; rfl)
  have decoded := decodeOfEncodeIsTheInstruction map i rest hmap
  rwa [encode, noOperands] at decoded

/-- Settles O4: each encoding by `encodesAs_of_class_none`, each effect by `exec_eq` and the
instruction's one field update. -/
theorem systemInstructionsDoTheirOneEffect : Obligations.SystemInstructionsDoTheirOneEffect := by
  intro s
  refine ⟨⟨?_, ?_⟩, ⟨?_, ?_⟩, ⟨?_, ?_⟩, ⟨?_, ?_⟩, ⟨?_, ?_⟩⟩
  · exact encodesAs_of_class_none (i := .nop) rfl
  · rw [exec_eq, execState_nop]
  · exact encodesAs_of_class_none (i := .stop) rfl
  · rw [exec_eq, execState_stop, State.setStatus]
  · exact encodesAs_of_class_none (i := .sleep) rfl
  · rw [exec_eq, execState_sleep, State.setStatus]
  · exact encodesAs_of_class_none (i := .ei) rfl
  · rw [exec_eq, execState_ei, State.setIe]
  · exact encodesAs_of_class_none (i := .di) rfl
  · rw [exec_eq, execState_di, State.setIe]

/-- Settles O5: BREAK only emits its event, with the address before `pc`, which is past its one byte. -/
theorem breakOnlyRecordsItsAddress : Obligations.BreakOnlyRecordsItsAddress := by
  refine ⟨encodesAs_of_class_none (i := .brk) rfl, fun s => ?_⟩
  rw [exec_eq, execState_brk, State.emit]

end Sys2Proof.Machine
end

section
/-! SUPPORT. The family 42_arithmetic.md: the arithmetic unit in closed form and in the source's two
steps, and what each arithmetic instruction leaves, alone and over a register pair. -/

namespace Sys2Proof.Machine

/-! ### The arithmetic unit in closed form (42_arithmetic.md R172, R173) -/

theorem Alu.eq_of_fields {x y : Alu} (result : x.result = y.result) (carry : x.carry = y.carry)
    (zero : x.zero = y.zero) : x = y := by
  cases x; cases y; cases result; cases carry; cases zero; rfl

theorem addc8_eq (cin : Bool) (a b : Byte) :
    addc8 cin a b =
      { result := BitVec.ofNat 8 (a.toNat + b.toNat + cin.toNat)
        carry := decide (256 ≤ a.toNat + b.toNat + cin.toNat)
        zero := decide ((a.toNat + b.toNat + cin.toNat) % 256 = 0) } := by
  cases cin with
  | false => rfl
  | true =>
    obtain ⟨result, carry, zero⟩ := addc8_true a b
    exact Alu.eq_of_fields result carry zero

theorem subc8_eq (cin : Bool) (a b : Byte) :
    subc8 cin a b =
      { result := BitVec.ofInt 8 ((a.toNat : Int) - b.toNat - cin.toNat)
        carry := decide (a.toNat < b.toNat + cin.toNat)
        zero := decide (((a.toNat : Int) - b.toNat - cin.toNat) % 256 = 0) } := by
  cases cin with
  | false => simp [subc8_false, sub8]
  | true =>
    obtain ⟨result, carry, zero⟩ := subc8_true a b
    refine Alu.eq_of_fields (result.trans ?_) carry (zero.trans ?_)
    · apply BitVec.eq_of_toNat_eq
      rw [BitVec.toNat_ofInt, Bool.toNat_true]
      bv_omega
    · rw [decide_eq_decide, Bool.toNat_true]
      bv_omega

/-- A flag-writing result as the register write and the two flags. -/
theorem writeAlu_mk (d : RegIdx) (result : Byte) (carry zero : Bool) (s : State) :
    writeAlu d { result, carry, zero } s =
      { s.setReg d result with carry := carry, zero := zero } := rfl

/-- Settles O7: `addc8_eq` and `subc8_eq`, written to the register and the flags. -/
theorem carryInClosedForms : Obligations.CarryInClosedForms := by
  rintro d src s _ _ _ rfl rfl rfl
  constructor
  · rw [exec_eq, execState_addc, addc8_eq, writeAlu_mk]
  · rw [exec_eq, execState_subc, subc8_eq, writeAlu_mk]

/-! ### Two bytes at a time (42_arithmetic.md R174) -/

theorem addc8_result_toNat (cin : Bool) (a b : Byte) :
    (addc8 cin a b).result.toNat = (a.toNat + b.toNat + cin.toNat) % 256 := by
  rw [addc8_eq, BitVec.toNat_ofNat]

theorem subc8_result_toNat (cin : Bool) (a b : Byte) :
    (subc8 cin a b).result.toNat = (a.toNat + 256 - (b.toNat + cin.toNat)) % 256 := by
  have := a.isLt; have := b.isLt; have := cin.toNat_le
  rw [subc8_eq, BitVec.toNat_ofInt]
  omega

/-- `Z` of ADDC is that the final byte is 0 (42_arithmetic.md R161). -/
theorem addc8_zero (cin : Bool) (a b : Byte) :
    (addc8 cin a b).zero = decide ((addc8 cin a b).result = 0) := by
  cases cin with
  | false => exact add8_zero a b
  | true => exact add8_zero (add8 a b).result 1

theorem sub8_zero_of_result (a b : Byte) : (sub8 a b).zero = decide ((sub8 a b).result = 0) := by
  rw [sub8_zero, decide_eq_decide, sub8_result, sub_eq_zero]

/-- `Z` of SUBC is that the final byte is 0 (42_arithmetic.md R163). -/
theorem subc8_zero (cin : Bool) (a b : Byte) :
    (subc8 cin a b).zero = decide ((subc8 cin a b).result = 0) := by
  cases cin with
  | false => exact sub8_zero_of_result a b
  | true => exact sub8_zero_of_result (sub8 a b).result 1

/-- The carry of the low bytes joins the sum of the high bytes to one 16-bit sum. -/
theorem addc8_after_add8 (ah al bh bl : Byte) :
    w16 (addc8 (add8 al bl).carry ah bh).result (add8 al bl).result =
      BitVec.ofNat 16 ((w16 ah al).toNat + (w16 bh bl).toNat) ∧
    (addc8 (add8 al bl).carry ah bh).carry =
      decide (65536 ≤ (w16 ah al).toNat + (w16 bh bl).toNat) := by
  have := al.isLt; have := bl.isLt
  have lowCarry : (add8 al bl).carry.toNat = (al.toNat + bl.toNat) / 256 := by
    rw [add8, Bool.toNat, Bool.cond_decide]; split <;> omega
  constructor
  · apply BitVec.eq_of_toNat_eq
    rw [BitVec.toNat_ofNat, w16_toNat, w16_toNat, w16_toNat, addc8_result_toNat, add8_result_toNat,
      lowCarry]
    omega
  · rw [addc8_eq, decide_eq_decide, w16_toNat, w16_toNat, lowCarry]
    omega

/-- The borrow of the low bytes joins the difference of the high bytes to one 16-bit difference. -/
theorem subc8_after_sub8 (ah al bh bl : Byte) :
    w16 (subc8 (sub8 al bl).carry ah bh).result (sub8 al bl).result = w16 ah al - w16 bh bl ∧
    (subc8 (sub8 al bl).carry ah bh).carry =
      decide ((w16 ah al).toNat < (w16 bh bl).toNat) := by
  have := ah.isLt; have := al.isLt; have := bh.isLt; have := bl.isLt
  have lowBorrow : (sub8 al bl).carry.toNat = (bl.toNat + 255 - al.toNat) / 256 := by
    rw [sub8, Bool.toNat, Bool.cond_decide]; split <;> omega
  constructor
  · apply BitVec.eq_of_toNat_eq
    rw [BitVec.toNat_sub, w16_toNat, w16_toNat, w16_toNat, subc8_result_toNat, sub8_result_toNat,
      lowBorrow]
    omega
  · rw [subc8_eq, decide_eq_decide, w16_toNat, w16_toNat, lowBorrow]
    omega

/-- The low result and then the high result, written to a pair of two registers. -/
theorem ptrAddr_writeAlu_writeAlu {h l : RegIdx} (ne : h ≠ l) (low high : Alu) (s : State) :
    ptrAddr h l (writeAlu h high (writeAlu l low s)) = w16 high.result low.result := by
  simp [ptrAddr, setReg_reg_other _ _ _ _ ne.symm]

theorem writeAlu_reg_other {d r : RegIdx} (ne : r ≠ d) (out : Alu) (s : State) :
    (writeAlu d out s).reg r = s.reg r := by
  simp [setReg_reg_other _ _ _ _ ne]

theorem writeAlu_zero {out : Alu} (zero : out.zero = decide (out.result = 0)) (d : RegIdx)
    (s : State) : (writeAlu d out s).zero = decide ((writeAlu d out s).reg d = 0) := by
  simp [zero]

/-- Settles O10: the high bytes are read as they were before the low result was written, so
`addc8_after_add8` and `subc8_after_sub8` give the pair and `C`, and `Z` is that of the high byte. -/
theorem twoByteAddAndSubtract : Obligations.TwoByteAddAndSubtract := by
  intro h1 l1 h2 l2 s t u ne1 ne2
  constructor
  · rintro low high _ rfl
    obtain rfl := execState_of_next low
    obtain rfl := execState_of_next high
    obtain ⟨sum, carry⟩ := addc8_after_add8 (s.reg h1) (s.reg l1) (s.reg h2) (s.reg l2)
    rw [execState_addc, execState_add, writeAlu_reg_other ne1, writeAlu_reg_other ne2]
    exact ⟨(ptrAddr_writeAlu_writeAlu ne1 _ _ s).trans sum, carry, writeAlu_zero (addc8_zero ..) ..⟩
  · intro low high
    obtain rfl := execState_of_next low
    obtain rfl := execState_of_next high
    obtain ⟨difference, borrow⟩ := subc8_after_sub8 (s.reg h1) (s.reg l1) (s.reg h2) (s.reg l2)
    rw [execState_subc, execState_sub, writeAlu_reg_other ne1, writeAlu_reg_other ne2]
    exact ⟨(ptrAddr_writeAlu_writeAlu ne1 _ _ s).trans difference, borrow,
      writeAlu_zero (subc8_zero ..) ..⟩

/-! ### The source's two steps (42_arithmetic.md R160 to R163) -/

/-- An instruction's own encoding, under every admissible opcode map (30_encoding.md R91). -/
theorem encodesAs_encode (i : Instr) : encodesAs (fun m => encode m i) i :=
  fun map hmap rest => decodeOfEncodeIsTheInstruction map i rest hmap

/-- ADDC with `C` set adds 1 to the byte that ADD leaves. -/
theorem addc8_true_steps (a b : Byte) :
    addc8 true a b =
      { result := BitVec.ofNat 8 ((a.toNat + b.toNat) % 256 + 1)
        carry := decide (256 ≤ a.toNat + b.toNat) ||
          decide (256 ≤ (a.toNat + b.toNat) % 256 + 1)
        zero := decide (((a.toNat + b.toNat) % 256 + 1) % 256 = 0) } := by
  rw [← add8_result_toNat]; rfl

/-- The difference as a natural number (42_arithmetic.md R170). -/
theorem sub8_eq (a b : Byte) :
    sub8 a b =
      { result := BitVec.ofNat 8 ((a.toNat + 256 - b.toNat) % 256)
        carry := decide (a.toNat < b.toNat)
        zero := decide ((a.toNat + 256 - b.toNat) % 256 = 0) } := by
  have value := sub8_result_toNat a b
  refine Alu.eq_of_fields ?_ rfl ?_
  · rw [← value, BitVec.ofNat_toNat, BitVec.setWidth_eq]
  · rw [sub8_zero_of_result, decide_eq_decide, ← value, ← BitVec.toNat_inj]; rfl

/-- SUBC with `C` set subtracts 1 from the byte that SUB leaves. -/
theorem subc8_true_steps (a b : Byte) {r : Nat} (first : r = (a.toNat + 256 - b.toNat) % 256) :
    subc8 true a b =
      { result := BitVec.ofNat 8 ((r + 255) % 256)
        carry := decide (a.toNat < b.toNat) || decide (r < 1)
        zero := decide ((r + 255) % 256 = 0) } := by
  have second : subc8 true a b =
      { sub8 (sub8 a b).result 1 with
        carry := (sub8 a b).carry || (sub8 (sub8 a b).result 1).carry } := rfl
  rw [second, sub8_eq (sub8 a b).result 1, sub8_result_toNat, ← first]
  rfl

/-- Settles O6: ADD is `add8`, and ADDC is `add8` again or `addc8_true_steps`, by the carry that comes
in. -/
theorem addAndAddcGiveSumCarryAndZero : Obligations.AddAndAddcGiveSumCarryAndZero := by
  rintro d src s _ rfl
  refine ⟨⟨encodesAs_encode (.add d src), ?_⟩, encodesAs_encode (.addc d src), fun clear => ?_,
    fun set => ?_⟩
  · rw [exec_eq, execState_add, add8, writeAlu_mk]
  · rw [exec_eq, execState_addc, clear, addc8_false, add8, writeAlu_mk]
  · rw [exec_eq, execState_addc, set, addc8_true_steps, writeAlu_mk]

/-- Settles O8: SUB is `sub8_eq`, and SUBC is `sub8_eq` again or `subc8_true_steps`, by the borrow that
comes in. -/
theorem subAndSubcGiveDifferenceBorrowAndZero :
    Obligations.SubAndSubcGiveDifferenceBorrowAndZero := by
  rintro d src s _ _ r rfl rfl first
  refine ⟨⟨encodesAs_encode (.sub d src), ?_⟩, encodesAs_encode (.subc d src), fun clear => ?_,
    fun set => ?_⟩
  · rw [exec_eq, execState_sub, sub8_eq, writeAlu_mk, ← first]
  · rw [exec_eq, execState_subc, clear, subc8_false, sub8_eq, writeAlu_mk, ← first]
  · rw [exec_eq, execState_subc, set, subc8_true_steps _ _ first, writeAlu_mk]

/-! ### INC and DEC (42_arithmetic.md R164, R165) -/

/-- The operand byte of class single-reg, whatever the ignored nibble `x` (30_encoding.md R82). -/
theorem encodesAs_of_singleReg {i : Instr} (x r : RegIdx)
    (single : i.mnemonic.operandClass = .singleReg)
    (assembled : ∀ b1 b2 b3 : Byte, lo4 b1 = r → assemble i.mnemonic b1 b2 b3 = i) :
    encodesAs (fun m => [m.byte i.mnemonic, nibbles x r]) i :=
  encodesAs_of_assemble (by rw [single]; rfl) fun _ => assembled _ _ _ (lo4_nibbles x r)

theorem sub8_one (a : Byte) :
    sub8 a 1 =
      { result := BitVec.ofNat 8 (a.toNat + 255)
        carry := decide (a.toNat < 1)
        zero := decide (a.toNat = 1) } := by
  refine Alu.eq_of_fields ?_ rfl ?_
  · apply BitVec.eq_of_toNat_eq
    rw [sub8_result_toNat, BitVec.toNat_ofNat]; rfl
  · rw [sub8_zero, decide_eq_decide, ← BitVec.toNat_inj]; rfl

/-- Settles O9: INC is `add8` with 1 and DEC is `sub8_one`. -/
theorem incAndDecMoveByOne : Obligations.IncAndDecMoveByOne := by
  rintro x r s _ rfl
  refine ⟨⟨?_, ?_⟩, ?_, ?_⟩
  · exact encodesAs_of_singleReg (i := .inc r) x r rfl (by rintro _ _ _ rfl; rfl)
  · rw [exec_eq, execState_inc, add8, writeAlu_mk]; rfl
  · exact encodesAs_of_singleReg (i := .dec r) x r rfl (by rintro _ _ _ rfl; rfl)
  · rw [exec_eq, execState_dec, sub8_one, writeAlu_mk]

end Sys2Proof.Machine
end

section
/-! SUPPORT. The family 43_logic_compare.md: the flags a comparison leaves, and what each logic and
compare instruction leaves of the state. -/

namespace Sys2Proof.Machine

/-! ### AND, OR and XOR (43_logic_compare.md R180 to R182) -/

/-- A logic result as the register write and the two flags, whatever the bitwise operation. -/
theorem writeAlu_logic8 (d : RegIdx) (r : Byte) (s : State) :
    writeAlu d (logic8 r) s = { s.setReg d r with carry := false, zero := decide (r = 0) } := rfl

/-- Settles O11: each encoding is the instruction's own, each effect is `writeAlu_logic8` at its
bitwise result. -/
theorem logicClearsCarry : Obligations.LogicClearsCarry := by
  rintro d src s _ _ rfl rfl
  refine ⟨⟨encodesAs_encode (.and d src), ?_⟩, ⟨encodesAs_encode (.or d src), ?_⟩,
    encodesAs_encode (.xor d src), ?_⟩
  · rw [exec_eq, execState_and, writeAlu_logic8]
  · rw [exec_eq, execState_or, writeAlu_logic8]
  · rw [exec_eq, execState_xor, writeAlu_logic8]

/-! ### CMP and CMPI (43_logic_compare.md R183, R184) -/

/-- A comparison writes the borrow to `C`, equality to `Z`, and nothing else. -/
theorem writeAluFlags_sub8 (a b : Byte) (s : State) :
    writeAluFlags (sub8 a b) s =
      { s with carry := decide (a.toNat < b.toNat), zero := decide (a = b) } := by
  rw [← sub8_zero]; rfl

/-- Settles O12: CMP writes the flags of the `sub8` that SUB writes, which `writeAluFlags_sub8` gives as
an order and an equality of numbers. -/
theorem cmpSetsFlagsOnly : Obligations.CmpSetsFlagsOnly := by
  rintro d src s t a b ha hb ht
  have compared : t = writeAluFlags (sub8 (s.reg d) (s.reg src)) s := by
    rw [writeAluFlags_sub8, ht, ha, hb, decide_eq_decide.mpr BitVec.toNat_inj]
  have carry : t.carry = decide (a < b) := by rw [ht]
  have zero : t.zero = decide (a = b) := by rw [ht]
  refine ⟨encodesAs_encode (.cmp d src), ?_, fun u sub => ?_, ?_, ?_, ?_⟩
  · rw [exec_eq, execState_cmp, compared]
  · rw [compared, execState_of_next sub, execState_sub]
    exact ⟨rfl, rfl⟩
  · rw [carry, decide_eq_true_iff]
  · rw [zero, decide_eq_true_iff]
  · rw [carry, zero, decide_eq_false_iff_not, decide_eq_false_iff_not]
    omega

/-- The operand bytes of class reg-imm8, whatever the ignored nibble `x` (30_encoding.md R82). -/
theorem encodesAs_of_regImm8 {i : Instr} (x r : RegIdx) (imm : Byte)
    (regImm : i.mnemonic.operandClass = .regImm8)
    (assembled : ∀ b1 b3 : Byte, lo4 b1 = r → assemble i.mnemonic b1 imm b3 = i) :
    encodesAs (fun m => [m.byte i.mnemonic, nibbles x r, imm]) i :=
  encodesAs_of_assemble (by rw [regImm]; rfl) fun _ => assembled _ _ (lo4_nibbles x r)

/-- Settles O13: the encoding by `encodesAs_of_regImm8`, the effect by `writeAluFlags_sub8`. -/
theorem cmpiSetsFlagsOnly : Obligations.CmpiSetsFlagsOnly := by
  intro x r imm s
  refine ⟨encodesAs_of_regImm8 (i := .cmpi r imm) x r imm rfl ?_, ?_⟩
  · rintro _ _ rfl; rfl
  · rw [exec_eq, execState_cmpi, writeAluFlags_sub8]

end Sys2Proof.Machine
end

section
/-! SUPPORT. The family 44_control.md: what the jumps and branches, and CALL, RET and RETI, write. -/

namespace Sys2Proof.Machine

/-! ### CALL and then RET (44_control.md R192) -/

/-- Settles O16: CALL leaves its two bytes where `pop16` looks for them, and RET moves `sp` back by as
much as CALL moved it. -/
theorem callThenRetReturns : Obligations.CallThenRetReturns := by
  intro addr s t call
  have left : t = (push16 s.pc s).setPc addr := execState_of_next call
  have sp : t.sp = s.sp - 2 := by rw [left, setPc_sp, push16_sp]
  have popped : (pop16 t).1 = s.pc := by
    refine pop16_value_of_pushed ?order ?first ?second sp
    case order => rw [left, setPc_config, push16_config]
    case first => rw [left, setPc_readData, push16_first]
    case second => rw [left, setPc_readData, push16_second]
  rw [exec_eq, execState_ret, popped, sp, BitVec.sub_add_cancel]
  rfl

/-! ### Jumps and branches (44_control.md R190, R194 to R197) -/

/-- A branch on a set flag, taken or not, is one write of `pc`. -/
theorem setPc_if_set (flag : Bool) (addr : Addr) (s : State) :
    (if flag then s.setPc addr else s) = { s with pc := if flag = true then addr else s.pc } := by
  cases flag <;> rfl

/-- A branch on a clear flag, taken or not, is one write of `pc`. -/
theorem setPc_if_clear (flag : Bool) (addr : Addr) (s : State) :
    (if flag then s else s.setPc addr) =
      { s with pc := if flag = false then addr else s.pc } := by
  cases flag <;> rfl

/-- Settles O14: each encoding is the instruction's own, each branch is one write of `pc` by `setPc_if_set`
or `setPc_if_clear`. -/
theorem jumpsAndBranchesSetPcOnly : Obligations.JumpsAndBranchesSetPcOnly := by
  intro addr s
  refine ⟨⟨encodesAs_encode (.jmp addr), exec_eq (.jmp addr) s⟩, ⟨encodesAs_encode (.brc addr), ?_⟩,
    ⟨encodesAs_encode (.brnc addr), ?_⟩, ⟨encodesAs_encode (.brz addr), ?_⟩,
    encodesAs_encode (.brnz addr), ?_⟩
  · rw [exec_eq, execState_brc, setPc_if_set]
  · rw [exec_eq, execState_brnc, setPc_if_clear]
  · rw [exec_eq, execState_brz, setPc_if_set]
  · rw [exec_eq, execState_brnz, setPc_if_clear]

/-! ### CALL, RET and RETI (44_control.md R191 to R193) -/

/-- Settles O15: each encoding is the instruction's own, each effect is `exec_eq` with the
instruction's equation. -/
theorem callRetAndRetiUseTheStack : Obligations.CallRetAndRetiUseTheStack := by
  intro addr s
  refine ⟨⟨encodesAs_encode (.call addr), exec_eq (.call addr) s⟩, ⟨encodesAs_encode .ret, ?_⟩,
    encodesAs_encode .reti, ?_⟩
  · rw [exec_eq, execState_ret]; rfl
  · rw [exec_eq, execState_reti]; rfl

end Sys2Proof.Machine
end

section
/-! SUPPORT. The family 45_data_transfer.md: the encodings and effects of MOV, LDI, LD, ST and LPM. -/

namespace Sys2Proof.Machine

/-! ### MOV (45_data_transfer.md R205) -/

/-- Settles O20: the encoding is the instruction's own, the effect is `exec_eq` with MOV's equation. -/
theorem movCopiesRegister : Obligations.MovCopiesRegister := by
  intro d src s
  refine ⟨encodesAs_encode (.mov d src), ?_⟩
  rw [exec_eq, execState_mov]

/-! ### LDI, LD, ST and LPM (45_data_transfer.md R206 to R209) -/

/-- The three operand bytes of class reg-addr16, whatever the ignored nibble `x` (30_encoding.md R82). -/
theorem encodesAs_of_regAddr16 {i : Instr} (x r : RegIdx) (addr : Addr)
    (regAddr : i.mnemonic.operandClass = .regAddr16)
    (assembled : ∀ b1 b2 b3 : Byte, lo4 b1 = r → w16 b2 b3 = addr →
      assemble i.mnemonic b1 b2 b3 = i) :
    encodesAs (fun m => [m.byte i.mnemonic, nibbles x r, hi8 addr, lo8 addr]) i :=
  encodesAs_of_assemble (by rw [regAddr]; rfl) fun _ =>
    assembled _ _ _ (lo4_nibbles x r) (w16_hi8_lo8 addr)

/-- Settles O21: the encodings by `encodesAs_of_regImm8` and `encodesAs_of_regAddr16`, each effect by
`exec_eq` with the instruction's equation. -/
theorem immediateAndAbsoluteTransfers : Obligations.ImmediateAndAbsoluteTransfers := by
  intro x r imm addr s
  refine ⟨⟨?_, ?_⟩, ⟨?_, ?_⟩, ⟨?_, ?_⟩, ⟨?_, ?_⟩⟩
  · exact encodesAs_of_regImm8 (i := .ldi r imm) x r imm rfl (by rintro _ _ rfl; rfl)
  · rw [exec_eq, execState_ldi]
  · exact encodesAs_of_regAddr16 (i := .ld r addr) x r addr rfl (by rintro _ _ _ rfl rfl; rfl)
  · rw [exec_eq, execState_ld]
  · exact encodesAs_of_regAddr16 (i := .st r addr) x r addr rfl (by rintro _ _ _ rfl rfl; rfl)
  · rw [exec_eq, execState_st]
  · exact encodesAs_of_regAddr16 (i := .lpm r addr) x r addr rfl (by rintro _ _ _ rfl rfl; rfl)
  · rw [exec_eq, execState_lpm]

end Sys2Proof.Machine
end

section
/-! SUPPORT. The family 46_stack_io.md: the encodings and effects of IN and OUT. -/

namespace Sys2Proof.Machine

/-- The operand bytes of class reg-port8, whatever the ignored nibble `x` (30_encoding.md R82). -/
theorem encodesAs_of_regPort8 {i : Instr} (x r : RegIdx) (p : Byte)
    (regPort : i.mnemonic.operandClass = .regPort8)
    (assembled : ∀ b1 b3 : Byte, lo4 b1 = r → assemble i.mnemonic b1 p b3 = i) :
    encodesAs (fun m => [m.byte i.mnemonic, nibbles x r, p]) i :=
  encodesAs_of_assemble (by rw [regPort]; rfl) fun _ => assembled _ _ (lo4_nibbles x r)

/-! ### IN (46_stack_io.md R222) -/

/-- A bound port's read invokes its callback once and answers the next draw (20_memory.md R66). -/
theorem portRead_of_bound {p : Byte} {s : State} (h : p ∈ s.ports.readBound) :
    portRead p s = (Config.portDraw s.draws, { s with
      draws := s.draws + 1
      portCalls := s.portCalls ++ [.portRd p (Config.portDraw s.draws)] }) := if_pos h

/-- Settles O24: the encoding by `encodesAs_of_regPort8`, the effect by `portRead_of_unbound` and
`portRead_of_bound`. -/
theorem inReadsPort : Obligations.InReadsPort := by
  intro x r p s
  refine ⟨encodesAs_of_regPort8 (i := .inp r p) x r p rfl (by rintro _ _ rfl; rfl),
    fun unbound => ?_, fun bound => ⟨Config.portDraw s.draws, rfl, ?_⟩⟩
  · rw [exec_eq, execState_inp, portRead_of_unbound unbound]; rfl
  · rw [exec_eq, execState_inp, portRead_of_bound bound]; rfl

/-! ### OUT (46_stack_io.md R223) -/

/-- Settles O25: the encoding by `encodesAs_of_regPort8`, the effect by `portWrite_eq`, where an unbound
port appends no callback. -/
theorem outWritesPort : Obligations.OutWritesPort := by
  intro x r p s
  refine ⟨encodesAs_of_regPort8 (i := .out r p) x r p rfl (by rintro _ _ rfl; rfl), ?_⟩
  rw [exec_eq, execState_out, portWrite_eq]
  split
  · rfl
  · rw [List.append_nil]

end Sys2Proof.Machine
end

section
/-! SUPPORT. The family 60_exceptions.md: which line is due and what taking it does, and that a step stops
at an illegal opcode and at nothing else. -/

namespace Sys2Proof.Machine

/-! ### The due line and its dispatch (60_exceptions.md R236 to R238) -/

theorem Line.forall_iff {P : Line → Prop} :
    (∀ k : Line, P k) ↔ P .vblank ∧ P .button ∧ P .keyboard ∧ P .serial :=
  ⟨fun h => ⟨h _, h _, h _, h _⟩, fun ⟨hv, hb, hk, hs⟩ k => k.casesOn hv hb hk hs⟩

/-- The highest pending line is the one that is pending with no line of a lower rank pending:
a finite check, by line, of the sixteen values of the pending booleans. -/
theorem Pending.highest_eq_some_iff (p : Pending) (l : Line) :
    p.highest = some l ↔
      p.get l = true ∧ ∀ k : Line, k.rank < l.rank → p.get k = false := by
  rw [Line.forall_iff]
  obtain ⟨vblank, button, keyboard, serial⟩ := p
  cases l <;> decide +revert

theorem dueLine_eq_some_iff (s : State) (l : Line) :
    s.dueLine = some l ↔ s.ie = true ∧ s.pend.get l = true ∧
      ∀ k : Line, k.rank < l.rank → s.pend.get k = false := by
  cases ie : s.ie with
  | false => simp [dueLine_of_not_ie ie]
  | true => simp [dueLine_of_ie ie, Pending.highest_eq_some_iff]

/-- Settles O36: the due line by `dueLine_eq_some_iff`, the rest by `dispatch_eq`, since a 16-bit push
writes data memory and `sp` only. -/
theorem dispatchTakesTheHighestPendingLine : Obligations.DispatchTakesTheHighestPendingLine := by
  intro s l
  refine ⟨dueLine_eq_some_iff s l, ?_, fun k => ?_, rfl, rfl, rfl, rfl⟩
  · rw [dispatch_eq, push16_eq]
  · rw [dispatch_eq, Pending.get_set]

/-! ### What stops a step (60_exceptions.md R230, R231, R233) -/

/-- Settles O39: every instruction completes by `exec_eq`, and of the kinds of step that
`step_outcomes` lists, one faults. -/
theorem nothingFaultsButIllegalOpcode : Obligations.NothingFaultsButIllegalOpcode := by
  refine ⟨fun i s => ⟨_, exec_eq i s⟩, fun s => ?_⟩
  rcases step_outcomes s with ⟨idle, -⟩ | ⟨l, only, -⟩ | ⟨awake, unassigned, fault⟩ |
    ⟨i, len, -, -, -, ran⟩
  · exact .inl ⟨_, idle⟩
  · exact .inl ⟨_, only⟩
  · obtain ⟨-, pmem, -, regs, -⟩ := fetchState_keeps s
    exact .inr ⟨_, _, fault, unassigned, rfl, rfl, regs, pmem, awake⟩
  · exact .inl ⟨_, ran⟩

end Sys2Proof.Machine
end

section
/-! SUPPORT. The family 70_reset_and_hazards.md: the state that a reset leaves, the first step after it,
and that a core with `IE` false takes no interrupt before an EI or a RETI. -/

namespace Sys2Proof.Machine

/-! ### The state after a reset (70_reset_and_hazards.md R260) -/

@[simp] theorem resetCore_reg (s : State) (i : RegIdx) : (resetCore s).reg i = 0x00 :=
  Vector.getElem_replicate i.isLt

@[simp] theorem resetCore_readData (s : State) (a : Addr) : (resetCore s).readData a = 0x00 := rfl

@[simp] theorem resetCore_pend_get (s : State) (l : Line) : (resetCore s).pend.get l = false := by
  cases l <;> rfl

/-- Settles O1: the registers, the data bytes and the lines by the lemmas above; `resetCore` writes the
other fields itself, or keeps them. -/
theorem resetSetsEveryValue : Obligations.ResetSetsEveryValue := by
  refine ⟨?_, rfl⟩
  rintro s _ rfl
  exact ⟨resetCore_reg s, rfl, rfl, rfl, rfl, rfl, resetCore_pend_get s, rfl,
    resetCore_readData s, rfl⟩

/-! ### The first step after a reset (70_reset_and_hazards.md R262) -/

/-- Settles O2: no line is due with `IE` false, so a running core's step gives it (O34), with its lists
already empty and `pc` counted from 0x0000. -/
theorem firstStepAfterResetFetchesAtZero : Obligations.FirstStepAfterResetFetchesAtZero := by
  intro s p i len decoded
  have ran : step { resetCore s with pend := p } =
      exec i { resetCore s with pend := p, pc := 0x0000 + BitVec.ofNat 16 len } :=
    stepRunsTheDecodedInstruction _ i len rfl (dueLine_of_not_ie rfl) decoded
  rwa [zero_add] at ran

/-! ### Steps with `IE` false (70_reset_and_hazards.md R266, 60_exceptions.md R236) -/

theorem step_pend_of_masked {s t : State} (masked : s.ie = false) (h : step s = .next t) :
    t.pend = s.pend := by
  rcases step_pend h with ⟨same, -⟩ | ⟨fetched, -⟩
  · exact same
  · rw [fetched, fetchState_of_none (dueLine_of_not_ie masked)]
    rfl

/-- Only EI and RETI set `IE`, and with `IE` false the step fetches at `pc` or not at all. -/
theorem step_ie_of_masked {s t : State} (masked : s.ie = false) (h : step s = .next t)
    (noEnable : ∀ len : Nat,
      decodeAt s.config.opcodeMap s.pmem s.pc ≠ .ok .ei len ∧
      decodeAt s.config.opcodeMap s.pmem s.pc ≠ .ok .reti len) :
    t.ie = false := by
  have noneDue := dueLine_of_not_ie masked
  rcases step_outcomes s with ⟨idle, -⟩ | ⟨l, -, -, due, -⟩ | ⟨-, -, fault⟩ |
    ⟨i, len, -, -, decoded, ran⟩
  · cases idle.symm.trans h
    exact masked
  · cases noneDue.symm.trans due
  · cases fault.symm.trans h
  · cases ran.symm.trans h
    rw [fetchAddr_none noneDue] at decoded
    obtain ⟨notEi, notReti⟩ := noEnable len
    have enablesNot : ¬(i = .ei ∨ i = .reti) := by
      rintro (rfl | rfl)
      · exact notEi decoded
      · exact notReti decoded
    rw [execState_ie, if_neg enablesNot, fetchState_of_none noneDue, setPc_ie]
    split
    · rfl
    · exact masked

/-- Settles O42: induction on the number of steps, the first by `step_ie_of_masked` and
`step_pend_of_masked`. -/
theorem noInterruptWithoutEiOrReti : Obligations.NoInterruptWithoutEiOrReti := by
  intro n
  induction n with
  | zero =>
    intro s t masked reached _
    cases reached
    exact ⟨masked, rfl⟩
  | succ n ih =>
    intro s t masked reached noEnable
    obtain ⟨u, first, rest⟩ := steps_succ_eq_next_iff.mp reached
    have stillMasked := step_ie_of_masked masked first (noEnable 0 s n.succ_pos rfl)
    obtain ⟨ie, pend⟩ := ih u t stillMasked rest fun k v below later =>
      noEnable (k + 1) v (Nat.succ_lt_succ below) (steps_succ_eq_next_iff.mpr ⟨u, first, later⟩)
    exact ⟨ie, pend.trans (step_pend_of_masked masked first)⟩

end Sys2Proof.Machine
end
